-- ==== Sys2Proof/Word.lean ====
section
/-! DEFINITION. The word types of the PULSE block (00_scope.md R8): every value is an unsigned integer of a stated width. -/

namespace Sys2Proof

/-- One element of DBUF, RING or SEGTABLE, one byte of a command or event record (20_memory.md R60). -/
abbrev Byte := BitVec 8

/-- DELAYTICKS, WIDTHTICKS, TCNT, CMP and the fields of AUTOTABLE: TICKW = 16 (00_scope.md R6). -/
abbrev Ticks := BitVec 16

/-- The wide operands and every response: OPW = 32 (00_scope.md R6, 30_encoding.md R95). -/
abbrev Word := BitVec 32

end Sys2Proof
end

