-- ==== Sys2Proof/Config.lean ====
section
/-! DEFINITION. The parameters of the block (00_scope.md R6): the constants the spec fixes or decides, and, as constants
without a body, the values it leaves open. -/

namespace Sys2Proof.Config

/-- DELAY_MIN and DELAY_MAX, in API units of 0.1 ms (R6). -/
def delayMin : Nat := 5000
def delayMax : Nat := 99999

/-- SCALE_THRESHOLD: the largest delay kept on the fine tick (R6). -/
def scaleThreshold : Nat := 65535

/-- WIDTH_MIN_F and WIDTH_MAX_F: stored width, fine path (R6). -/
def widthMinFine : Nat := 4000
def widthMaxFine : Nat := 10000

/-- WIDTH_MIN_C and WIDTH_MAX_C: stored (halved) width, coarse path (R6; reading A of C9, A7). -/
def widthMinCoarse : Nat := 2000
def widthMaxCoarse : Nat := 5000

/-- PLAY_LIMIT: the smallest value PLAY ignores (R6). -/
def playLimit : Nat := 100000

/-- PRESC_FINE and PRESC_COARSE: the divide ratio itself (R6, D9). -/
def prescFine : Byte := 1
def prescCoarse : Byte := 2

/-- LF, CR, TERM (R6, D30). PRESUMED: the spec takes the values from general knowledge (G3; A11). -/
def lf : Byte := 0x0A
def cr : Byte := 0x0D
def term : Byte := 0x00

/-- RING_CAP is OPEN, 2 to 256 (R6, U8): a constant without a body, counted from 2 (A9). -/
opaque ringCapAbove2 : Fin 255

/-- RING_CAP of the machine after power-up. -/
def ringCap : Nat := ringCapAbove2.val + 2

/-- The delay and width of an AUTOTABLE entry that no source gives (R43, U7): free values (A9). -/
opaque autoDelay : Fin 20 → Ticks
opaque autoWidth : Fin 20 → Ticks

/-- What an unspecified RING cell holds (R38, U6): a free value, per reset and cell (A8). -/
opaque ringByte : Nat → Nat → Byte

/-- The RING after the reset numbered `epoch`: `n` unspecified cells (R38, R52). -/
def freshRing (epoch n : Nat) : List Byte := (List.range n).map (ringByte epoch)

end Sys2Proof.Config
end

