-- ==== Sys2Proof/Syntax.lean ====
section
/-! DEFINITION. The 18 commands (30_encoding.md R93) and the 6 event records (R103), one constructor each, with the operands
of their formats (R91, R92); the agent that issues each; the pseudo-commands (R102). -/

namespace Sys2Proof

/-- One constructor per row of spec/opcode_table.json. -/
inductive Instr where
  | arm
  | setman (delay width : Word)
  | setauto
  | getstate
  | getbusy
  | getdelay
  | getwidth
  | setmode (mode : Byte)
  | getmode
  | pwron
  | pwroff
  | play (value : Word)
  | fill (code : Byte)
  | fillat (code index : Byte)
  | received
  | rdbyte
  | wrbytes (payload : List Byte)
  | flush
  | evTrig
  | evBase
  | evRefresh
  | evRx (b : Byte)
  | evTxrdy (level : Byte)
  | evReset
  deriving DecidableEq, Repr

namespace Instr

/-- Events are not commands and never travel on the command port (R103). -/
def isEvent : Instr → Bool
  | evTrig => true
  | evBase => true
  | evRefresh => true
  | evRx _ => true
  | evTxrdy _ => true
  | evReset => true
  | arm => false
  | setman _ _ => false
  | setauto => false
  | getstate => false
  | getbusy => false
  | getdelay => false
  | getwidth => false
  | setmode _ => false
  | getmode => false
  | pwron => false
  | pwroff => false
  | play _ => false
  | fill _ => false
  | fillat _ _ => false
  | received => false
  | rdbyte => false
  | wrbytes _ => false
  | flush => false

/-- The place of each stimulus when several fall in the same instant (60_exceptions.md R228): EV_RESET, EV_TRIG, EV_BASE,
EV_REFRESH, EV_RX, EV_TXRDY, then the host. -/
def priority : Instr → Nat
  | evReset => 0
  | evTrig => 1
  | evBase => 2
  | evRefresh => 3
  | evRx _ => 4
  | evTxrdy _ => 5
  | arm => 6
  | setman _ _ => 6
  | setauto => 6
  | getstate => 6
  | getbusy => 6
  | getdelay => 6
  | getwidth => 6
  | setmode _ => 6
  | getmode => 6
  | pwron => 6
  | pwroff => 6
  | play _ => 6
  | fill _ => 6
  | fillat _ _ => 6
  | received => 6
  | rdbyte => 6
  | wrbytes _ => 6
  | flush => 6

/-- The pseudo-commands of R102, each an exact synonym of one command. -/
def blank : Instr := fill 0x00
def allseg : Instr := fill 0xFF
def dash : Instr := fill 0x40
def auto : Instr := setmode 0
def manual : Instr := setmode 1

end Instr

end Sys2Proof
end

