-- ==== Sys2Proof/WellFormed.lean ====
section
/-! DEFINITION. Which instructions have an encoding: every operand value is accepted (30_encoding.md R98), and a WRBYTES payload
holds no TERM byte (R106). -/

namespace Sys2Proof

/-- R106: "A payload therefore cannot contain 0x00." -/
def payloadOk (payload : List Byte) : Bool := payload.all (fun b => b ≠ Config.term)

/-- The well-formed instructions: the only check is the payload of FS (R98, R106). -/
def Instr.wf : Instr → Bool
  | .wrbytes payload => payloadOk payload
  | .arm => true
  | .setman _ _ => true
  | .setauto => true
  | .getstate => true
  | .getbusy => true
  | .getdelay => true
  | .getwidth => true
  | .setmode _ => true
  | .getmode => true
  | .pwron => true
  | .pwroff => true
  | .play _ => true
  | .fill _ => true
  | .fillat _ _ => true
  | .received => true
  | .rdbyte => true
  | .flush => true
  | .evTrig => true
  | .evBase => true
  | .evRefresh => true
  | .evRx _ => true
  | .evTxrdy _ => true
  | .evReset => true

end Sys2Proof
end

