-- ==== Sys2Proof/Decode.lean ====
section
/-! DEFINITION. The decoder of trace items and of the command port (30_encoding.md R91 to R107), total on any bytes, and after
it the encoder, both written from the tables of R91, R93 and R103. -/

namespace Sys2Proof

/-- What a decoder answers: an instruction and the bytes after it; a reserved one-byte item (R96); or an item that the bytes end
inside of (R97). -/
inductive Decoded where
  | ok (i : Instr) (rest : List Byte)
  | reserved (code : Byte)
  | incomplete
  deriving DecidableEq, Repr

/-- R92: "a = byte1 + 256 * byte2 + 65536 * byte3 + 16777216 * byte4", the first byte the least significant. -/
def le32 (b0 b1 b2 b3 : Byte) : Word :=
  BitVec.ofNat 32 (b0.toNat + 256 * b1.toNat + 65536 * b2.toNat + 16777216 * b3.toNat)

/-- Byte `k` of a 32-bit value, counted from the least significant (R92, R95). -/
def byteOf (k : Nat) (w : Word) : Byte := BitVec.ofNat 8 (w.toNat / 256 ^ k)

/-- The four bytes of a 32-bit value, least significant first (R92, R95). -/
def le32Bytes (w : Word) : List Byte := [byteOf 0 w, byteOf 1 w, byteOf 2 w, byteOf 3 w]

/-- Format FB or EB: one operand byte. -/
def decodeB (f : Byte → Instr) : List Byte → Decoded
  | a :: rest => .ok (f a) rest
  | [] => .incomplete

/-- Format FBB: two operand bytes. -/
def decodeBB (f : Byte → Byte → Instr) : List Byte → Decoded
  | a :: b :: rest => .ok (f a b) rest
  | _ => .incomplete

/-- Format FW: one little-endian 32-bit operand. -/
def decodeW (f : Word → Instr) : List Byte → Decoded
  | a0 :: a1 :: a2 :: a3 :: rest => .ok (f (le32 a0 a1 a2 a3)) rest
  | _ => .incomplete

/-- Format FWW: two little-endian 32-bit operands. -/
def decodeWW (f : Word → Word → Instr) : List Byte → Decoded
  | a0 :: a1 :: a2 :: a3 :: b0 :: b1 :: b2 :: b3 :: rest => .ok (f (le32 a0 a1 a2 a3) (le32 b0 b1 b2 b3)) rest
  | _ => .incomplete

/-- Splits at the first TERM byte: the bytes before it and the bytes after it; none where there is no TERM (R94, R106). -/
def splitTerm : List Byte → Option (List Byte × List Byte)
  | [] => none
  | b :: bs => if b = Config.term then some ([], bs) else (splitTerm bs).map fun pr => (b :: pr.1, pr.2)

/-- Format FS: the payload up to the first TERM byte. -/
def decodeS (f : List Byte → Instr) (bs : List Byte) : Decoded :=
  match splitTerm bs with
  | some (payload, rest) => .ok (f payload) rest
  | none => .incomplete

/-- A code of the command port: the table of R93, every other byte reserved (R96). -/
def decodeCommandCode (code : Byte) (bs : List Byte) : Decoded :=
  match code.toNat with
  | 0x10 => .ok .arm bs
  | 0x11 => decodeWW .setman bs
  | 0x12 => .ok .setauto bs
  | 0x13 => .ok .getstate bs
  | 0x14 => .ok .getbusy bs
  | 0x15 => .ok .getdelay bs
  | 0x16 => .ok .getwidth bs
  | 0x17 => decodeB .setmode bs
  | 0x18 => .ok .getmode bs
  | 0x20 => .ok .pwron bs
  | 0x21 => .ok .pwroff bs
  | 0x22 => decodeW .play bs
  | 0x23 => decodeB .fill bs
  | 0x24 => decodeBB .fillat bs
  | 0x30 => .ok .received bs
  | 0x31 => .ok .rdbyte bs
  | 0x32 => decodeS .wrbytes bs
  | 0x33 => .ok .flush bs
  | _ => .reserved code

/-- A code of a trace: the event codes of R103, and the command codes of R93. -/
def decodeCode (code : Byte) (bs : List Byte) : Decoded :=
  match code.toNat with
  | 0x80 => .ok .evTrig bs
  | 0x81 => .ok .evBase bs
  | 0x82 => .ok .evRefresh bs
  | 0x83 => decodeB .evRx bs
  | 0x84 => decodeB .evTxrdy bs
  | 0x8F => .ok .evReset bs
  | _ => decodeCommandCode code bs

/-- The first item of a stimulus trace (R104, R107). -/
def decode : List Byte → Decoded
  | [] => .incomplete
  | code :: bs => decodeCode code bs

/-- The first command of a byte string of the command port, on which event codes are reserved (R96). -/
def decodePort : List Byte → Decoded
  | [] => .incomplete
  | code :: bs => decodeCommandCode code bs

/-- One item of a trace (R107). -/
inductive Item where
  | instr (i : Instr)
  | reserved (code : Byte)
  | incomplete (bs : List Byte)
  deriving DecidableEq, Repr

/-- R107: any byte string splits, left to right, into instructions, reserved one-byte items and at most one trailing incomplete
item; `fuel` bounds the number of items. -/
def splitItems : Nat → List Byte → List Item
  | 0, _ => []
  | _ + 1, [] => []
  | fuel + 1, b :: bs =>
    match decode (b :: bs) with
    | .ok i rest => .instr i :: splitItems fuel rest
    | .reserved code => .reserved code :: splitItems fuel bs
    | .incomplete => [.incomplete (b :: bs)]

/-- The items of a trace: each takes at least one byte, so its length is fuel enough. -/
def splitTrace (bs : List Byte) : List Item := splitItems bs.length bs

/-- The bytes of an instruction, written from R91, R93 and R103. -/
def encode : Instr → List Byte
  | .arm => [0x10]
  | .setman delay width => 0x11 :: (le32Bytes delay ++ le32Bytes width)
  | .setauto => [0x12]
  | .getstate => [0x13]
  | .getbusy => [0x14]
  | .getdelay => [0x15]
  | .getwidth => [0x16]
  | .setmode mode => [0x17, mode]
  | .getmode => [0x18]
  | .pwron => [0x20]
  | .pwroff => [0x21]
  | .play value => 0x22 :: le32Bytes value
  | .fill code => [0x23, code]
  | .fillat code index => [0x24, code, index]
  | .received => [0x30]
  | .rdbyte => [0x31]
  | .wrbytes payload => 0x32 :: (payload ++ [Config.term])
  | .flush => [0x33]
  | .evTrig => [0x80]
  | .evBase => [0x81]
  | .evRefresh => [0x82]
  | .evRx b => [0x83, b]
  | .evTxrdy level => [0x84, level]
  | .evReset => [0x8F]

/-- The bytes an item of a split trace stands for. -/
def Item.bytes : Item → List Byte
  | .instr i => encode i
  | .reserved code => [code]
  | .incomplete bs => bs

/-- The low `nbits` bits of `w`, in whole bytes, first byte first: bit 0 is the least significant bit of the first byte (R91). -/
def wordBytes (nbits w : Nat) : List Byte :=
  (List.range ((nbits + 7) / 8)).map fun k => BitVec.ofNat 8 (w / 2 ^ (8 * k))

/-- The bytes of the item that `w` spells, followed by zero bytes up to the longest fixed length (9 bytes, R91). -/
def paddedWord (nbits w : Nat) : List Byte := wordBytes nbits w ++ List.replicate 9 0

/-- The instruction the decoder reads from an opcode-table word. -/
def decodeTableWord (nbits w : Nat) : Option Instr :=
  match decode (paddedWord nbits w) with
  | .ok i _ => some i
  | .reserved _ => none
  | .incomplete => none

/-- Exactly the bytes of the item that an opcode-table word spells (the padding beyond the item is not part of it). -/
def tableWordBytes (nbits w : Nat) : List Byte :=
  match decodeTableWord nbits w with
  | some i => encode i
  | none => wordBytes nbits w

end Sys2Proof
end

