-- ==== Sys2Proof/Machine/State.lean ====
section
/-! DEFINITION. The state of the block: every row of 10_state.md R20, grouped by sub-block; the command in progress; and the
model's own fields (the stimulus still to come, what has been observed, the free-value counter). -/

namespace Sys2Proof.Machine

/-- PSTATE (R25): Delay = 0, Width = 1, Complete = 2; the fourth value of the two bits is never stored (U10, A16). -/
inductive PState where
  | delay
  | width
  | complete
  deriving DecidableEq, Repr

/-- The registers of the pulse timing engine (R20, R21, R23, R25 to R30). -/
structure Pulse where
  /-- DELAYTICKS -/
  delayTicks : Ticks
  /-- WIDTHTICKS -/
  widthTicks : Ticks
  /-- TICKPRESCALE: the divide ratio, 1 or 2 -/
  tickPrescale : Byte
  /-- CMP, the compare target -/
  cmp : Ticks
  /-- TCNT, the ticks since the last arm or match -/
  tcnt : Ticks
  /-- DIVCNT, the base edges since the last tick or arm -/
  divcnt : Byte
  /-- DIVRUN: the divider runs -/
  divrun : Bool
  /-- PSTATE -/
  pstate : PState
  /-- BUSY: a cycle is in flight -/
  busy : Bool
  /-- OUT, the level of the pulse output -/
  out : Bool
  /-- MODE: 0 automatic, otherwise manual -/
  mode : Byte
  /-- ATCUR, the cursor of the automatic table -/
  atcur : Fin 20
  deriving DecidableEq, Repr

/-- The registers of the display multiplexer (R20, R32 to R36). -/
structure Display where
  /-- DBUF, index 0 the least significant digit -/
  dbuf : Vector Byte 5
  /-- CURSOR -/
  cursor : Fin 5
  /-- SEGLATCH -/
  seglatch : Byte
  /-- LIT: the digit line selected by CURSOR is active -/
  lit : Bool
  /-- DISP_ON: the display is powered -/
  dispOn : Bool
  deriving DecidableEq, Repr

/-- The registers of the serial receive buffer (R20, R38 to R41); RING_CAP is the length of `ring` (A9). -/
structure Serial where
  /-- RING -/
  ring : List Byte
  /-- HEAD, the index of the next byte to read -/
  head : Nat
  /-- TAIL, the index of the next cell to fill -/
  tail : Nat
  /-- TXRDY, the transmit-ready level -/
  txrdy : Bool
  deriving DecidableEq, Repr

/-- One entry of AUTOTABLE, in fine ticks (R43). -/
structure AutoEntry where
  delay : Ticks
  width : Ticks
  deriving DecidableEq, Repr

/-- The read-only tables and their constants (R20, R43 to R45): parameters, held so that a statement ranges over all of them. -/
structure Tables where
  /-- AUTOTABLE -/
  autoTable : Vector AutoEntry 20
  /-- SEGTABLE -/
  segTable : Vector Byte 10
  /-- DP_MASK -/
  dpMask : Byte
  deriving DecidableEq, Repr

/-- The command in progress, as the atomic sub-steps it still has to make. -/
inductive Pending where
  /-- PLAY or FILL: the byte writes still to make, in order (41_display.md R166) -/
  | stores (ws : List (Fin 5 × Byte))
  /-- RDBYTE, held (42_serial.md R192) -/
  | read
  /-- WRBYTES: the bytes still to hand to the transmitter, in order (42_serial.md R193) -/
  | send (bs : List Byte)
  deriving DecidableEq, Repr

/-- The command port (30_encoding.md R90): the bytes accepted of a command not yet complete (R97), and the command in progress
(42_serial.md R201). -/
structure Port where
  accepted : List Byte
  pending : Option Pending
  deriving DecidableEq, Repr

/-- Who moves in one step, where the trace's own order is not followed (A1). -/
inductive Turn where
  /-- the first item of the trace, whole -/
  | item
  /-- the next sub-step of the command in progress, if it is enabled -/
  | command
  /-- one byte of the trace, taken by the command port -/
  | portByte
  deriving DecidableEq, Repr

/-- What the outside world still does (30_encoding.md R104, 00_scope.md R7): the bytes of the stimulus trace, and the turns; with no
turn left the order is that of R104. -/
structure Stimulus where
  trace : List Byte
  turns : List Turn
  deriving DecidableEq, Repr

/-- One pin configuration (R49 to R51): the level of OUT; and the levels of DIG[4:0] and SEG[7:0], or none when all thirteen display
lines are not driven. -/
structure Pins where
  out : Bool
  display : Option (BitVec 5 × BitVec 8)
  deriving DecidableEq, Repr

/-- The observable result of a trace so far (30_encoding.md R105), each list in order of time: the responses, the bytes handed to the
transmitter, the distinct pin configurations. -/
structure Observed where
  resp : List Word
  tx : List Byte
  pins : List Pins
  deriving DecidableEq, Repr

/-- The machine: the state of R20, the command port, and the model's own fields. -/
structure State where
  pulse : Pulse
  display : Display
  serial : Serial
  tables : Tables
  port : Port
  stim : Stimulus
  seen : Observed
  /-- how many times the free values have been drawn (A8) -/
  free : Nat
  deriving DecidableEq, Repr

/-- Why the machine stops with a fault. -/
inductive Fault where
  /-- Raised by SETMAN with MODE not 0, and by SETAUTO, while BUSY = 1: "unpredictable", "a model treats it as a **fault** that is
  never final" (40_pulse_engine.md R126, U2; A6). Safe. -/
  | parameterLoadWhileBusy
  deriving DecidableEq, Repr

/-- Why the model gives a step no meaning. -/
inductive Refusal where
  /-- Raised by an arm of exec whose instruction has no meaning yet. Safe. -/
  | notModelled (mnemonic : String)
  /-- Raised by step on a code that R96 or R103 reserves: "`refuse`: a program or trace containing one is not a program of this
  block" (U1; A5). Safe. -/
  | reservedCode (code : Byte)
  /-- Raised by step on a command item of the trace while another command is in progress or partly received: such a trace is
  "ill-formed" (30_encoding.md R104 (b), U13; A14). Safe. -/
  | commandWhilePending (i : Instr)
  deriving DecidableEq, Repr

/-- What one step or one instruction answers. -/
abbrev Result := Host.Outcome State Fault Refusal

/-- The pulse engine after reset (R52). -/
def Pulse.reset : Pulse where
  delayTicks := 0
  widthTicks := 0
  tickPrescale := 1
  cmp := 0
  tcnt := 0
  divcnt := 0
  divrun := false
  pstate := .delay
  busy := false
  out := false
  mode := 0
  atcur := 0

/-- The display multiplexer after reset (R52). -/
def Display.reset : Display where
  dbuf := Vector.replicate 5 0
  cursor := 0
  seglatch := 0
  lit := false
  dispOn := false

/-- The serial receive buffer after the reset numbered `epoch`, with `n` cells: their contents are unspecified (R52; A8). -/
def Serial.reset (epoch n : Nat) : Serial where
  ring := Config.freshRing epoch n
  head := 0
  tail := 0
  txrdy := false

/-- The command port after reset: no command in progress, the next byte an opcode (70_reset_and_hazards.md R251). -/
def Port.reset : Port where
  accepted := []
  pending := none

/-- AUTOTABLE: the three entries the source gives, every other one a free value (R43; A9). -/
def Tables.autoEntry (i : Fin 20) : AutoEntry :=
  if i = 0 then ⟨5000, 6000⟩
  else if i = 11 then ⟨60000, 6000⟩
  else if i = 19 then ⟨5000, 11000⟩
  else ⟨Config.autoDelay i, Config.autoWidth i⟩

/-- The tables of the machine after power-up: the default SEGTABLE and DP_MASK (R44, R45; A10). -/
def Tables.default : Tables where
  autoTable := Vector.ofFn Tables.autoEntry
  segTable := #v[0x3F, 0x06, 0x5B, 0x4F, 0x66, 0x6D, 0x7D, 0x07, 0x7F, 0x6F]
  dpMask := 0x80

/-- The machine right after reset (R52), with no stimulus to come and nothing observed but the pins of R52 (A2, A12). -/
def State.reset : State where
  pulse := Pulse.reset
  display := Display.reset
  serial := Serial.reset 0 Config.ringCap
  tables := Tables.default
  port := Port.reset
  stim := ⟨[], []⟩
  seen := ⟨[], [], [⟨false, none⟩]⟩
  free := 1

end Sys2Proof.Machine
end

