-- ==== Sys2Proof/Machine/Pins.lean ====
section
/-! DEFINITION. The pins as functions of the state (10_state.md R11, R49 to R51). -/

namespace Sys2Proof.Machine

/-- A pin value (R11): 0, 1, or Z, not driven. -/
inductive Level where
  | lo
  | hi
  | z
  deriving DecidableEq, Repr

/-- The level of a driven line. -/
def Level.ofBool (b : Bool) : Level := if b then .hi else .lo

/-- DIG[4:0] while the display is on: "DIG[i] = 1 if LIT = 1 and CURSOR = i, else 0" (R50). -/
def digLines (d : Display) : BitVec 5 := if d.lit then BitVec.twoPow 5 d.cursor.val else 0

/-- The pin configuration of a state (R49, R50, R51). -/
def pinsOf (p : Pulse) (d : Display) : Pins where
  out := p.out
  display := if d.dispOn then some (digLines d, d.seglatch) else none

/-- Line DIG[i] of a configuration (R50). -/
def digLevel (c : Pins) (i : Fin 5) : Level :=
  match c.display with
  | none => .z
  | some (dig, _) => .ofBool (dig.getLsbD i.val)

/-- Line SEG[j] of a configuration, in the bit order of a segment code (R51, R44). -/
def segLevel (c : Pins) (j : Fin 8) : Level :=
  match c.display with
  | none => .z
  | some (_, seg) => .ofBool (seg.getLsbD j.val)

/-- Pin OUT of a configuration, always driven (R49). -/
def outLevel (c : Pins) : Level := .ofBool c.out

end Sys2Proof.Machine
end

