-- ==== Sys2Proof/Machine/Flags.lean ====
section
/-! DEFINITION. The single-bit values a rule or the host reads (10_state.md R46): the block has no condition codes. -/

namespace Sys2Proof.Machine

/-- The number GETSTATE reports for PSTATE (R25): Delay 0, Width 1, Complete 2. -/
def PState.code : PState → BitVec 2
  | .delay => 0
  | .width => 1
  | .complete => 2

/-- A one-bit value as a number: 1 for true. -/
def bit (b : Bool) : BitVec 1 := BitVec.ofBool b

/-- The predicate `received` of R46: HEAD ≠ TAIL. -/
def received (r : Serial) : Bool := decide (r.head ≠ r.tail)

/-- R195: the ready level an EV_TXRDY operand means: 0 is not ready, any other value ready. -/
def readyLevel (level : Byte) : Bool := decide (level ≠ 0)

/-- R122: manual mode is MODE ≠ 0. -/
def manualMode (p : Pulse) : Bool := decide (p.mode ≠ 0)

/-- The sub-step of the command in progress is enabled: a byte write always; a read once the ring is not empty (R192); a byte to
send once the transmitter is ready (R193). -/
def subReady (s : State) : Bool :=
  match s.port.pending with
  | none => false
  | some (.stores _) => true
  | some .read => received s.serial
  | some (.send []) => true
  | some (.send (_ :: _)) => s.serial.txrdy

/-- The host is inside no command: none in progress (42_serial.md R201), none partly received (30_encoding.md R97). -/
def hostFree (s : State) : Bool := s.port.pending.isNone && s.port.accepted.isEmpty

end Sys2Proof.Machine
end

