-- ==== Sys2Proof/Machine/Operands.lean ====
section
/-! DEFINITION. The arithmetic on operands: clamping (00_scope.md R9), decimal digits and segment codes (41_display.md R160, R161),
the byte translation of WRBYTES (42_serial.md R193), the scaling of responses (40_pulse_engine.md R127, R128). -/

namespace Sys2Proof.Machine

/-- R9: lo if v < lo, hi if v > hi, else v. -/
def clamp (v lo hi : Nat) : Nat := if v < lo then lo else if v > hi then hi else v

/-- The parameters SETMAN stores (R122): the coarse path for a clamped delay above 65535, else the fine path. -/
def loadManual (p : Pulse) (delay width : Word) : Pulse :=
  let d := clamp delay.toNat Config.delayMin Config.delayMax
  if d > Config.scaleThreshold then
    { p with
      tickPrescale := Config.prescCoarse
      delayTicks := BitVec.ofNat 16 (d / 2)
      widthTicks := BitVec.ofNat 16 (clamp (width.toNat / 2) Config.widthMinCoarse Config.widthMaxCoarse) }
  else
    { p with
      tickPrescale := Config.prescFine
      delayTicks := BitVec.ofNat 16 d
      widthTicks := BitVec.ofNat 16 (clamp width.toNat Config.widthMinFine Config.widthMaxFine) }

/-- The parameters SETAUTO stores (R123): the entry at ATCUR, then the advance modulo 20. -/
def loadAuto (p : Pulse) (t : Tables) : Pulse :=
  { p with
    delayTicks := t.autoTable[p.atcur].delay
    widthTicks := t.autoTable[p.atcur].width
    tickPrescale := Config.prescFine
    atcur := p.atcur + 1 }

/-- R127, R128: ticks times TICKPRESCALE, as a 32-bit value. -/
def toApiUnits (ticks : Ticks) (prescale : Byte) : Word := BitVec.ofNat 32 (ticks.toNat * prescale.toNat)

/-- R160: digit(v, i) = (v div 10^i) mod 10. -/
def digit (v i : Nat) : Fin 10 := ⟨v / 10 ^ i % 10, Nat.mod_lt _ (by decide)⟩

/-- The byte PLAY writes to slot i: the code of the digit, with the decimal point on slot 4 (R161). -/
def playCode (t : Tables) (v : Nat) (i : Fin 5) : Byte :=
  if i = 4 then t.segTable[digit v i.val] ||| t.dpMask else t.segTable[digit v i.val]

/-- The five slots, in the order PLAY and FILL write them (R161, R162, R166). -/
def slots : List (Fin 5) := [0, 1, 2, 3, 4]

/-- The five byte writes of PLAY (R161). -/
def playStores (t : Tables) (value : Word) : List (Fin 5 × Byte) := slots.map fun i => (i, playCode t value.toNat i)

/-- The five byte writes of FILL (R162). -/
def fillStores (code : Byte) : List (Fin 5 × Byte) := slots.map fun i => (i, code)

/-- R170: dec(c), the digit whose segment code is c without the decimal point; none where there is none. -/
def decodeDigit (t : Tables) (c : Byte) : Option (Fin 10) :=
  (List.finRange 10).find? fun k => t.segTable[k] = c &&& ~~~t.dpMask

/-- R193: the bytes WRBYTES hands to the transmitter: a CR before each LF, every byte itself. -/
def sentBytes : List Byte → List Byte
  | [] => []
  | b :: bs => if b = Config.lf then Config.cr :: b :: sentBytes bs else b :: sentBytes bs

end Sys2Proof.Machine
end

