-- ==== Sys2Proof/Machine/Ops.lean ====
section
/-! DEFINITION. The named operations over the state: one update per sub-block, the array accesses (20_memory.md R79), the response, the
byte handed to the transmitter, the log of pin configurations (30_encoding.md R105), and the sub-steps of a command in progress.
Taking an event saves nothing, changes no mode and transfers control nowhere (60_exceptions.md R230, R231): there is no exception
entry and no return to share here; an event's meaning is its rule applied to the state. -/

namespace Sys2Proof.Machine

namespace State

def withPulse (s : State) (p : Pulse) : State := { s with pulse := p }
def withDisplay (s : State) (d : Display) : State := { s with display := d }
def withSerial (s : State) (r : Serial) : State := { s with serial := r }
def withPort (s : State) (q : Port) : State := { s with port := q }
def withStim (s : State) (m : Stimulus) : State := { s with stim := m }
def withSeen (s : State) (o : Observed) : State := { s with seen := o }

/-- The command in progress becomes `c`. -/
def setPending (s : State) (c : Option Pending) : State := s.withPort { s.port with pending := c }

/-- `resp <- v`: one 32-bit response to the host (R10, R95). -/
def respond (s : State) (v : Word) : State := s.withSeen { s.seen with resp := s.seen.resp ++ [v] }

/-- `emit TX(b)`: hands b to the serial transmitter (R10). -/
def emit (s : State) (b : Byte) : State := s.withSeen { s.seen with tx := s.seen.tx ++ [b] }

/-- The pin configuration of the state. -/
def pins (s : State) : Pins := pinsOf s.pulse s.display

/-- Writes registers that drive pins: where the pin configuration changes, the new one is appended to the log, since R105 observes
the sequence of distinct configurations (A12). -/
def drive (s : State) (p : Pulse) (d : Display) : State :=
  { s with
    pulse := p
    display := d
    seen := if pinsOf p d = s.pins then s.seen else { s.seen with pins := s.seen.pins ++ [pinsOf p d] } }

end State

/-- MemRead(RING:i, 1) (R79). An index beyond the array, which no rule computes (R70), reads a free value (A13). -/
def ringRead (r : Serial) (i : Nat) : Byte := r.ring.getD i (Config.ringByte 0 i)

/-- MemWrite(RING:i, 1, b) (R79). -/
def ringWrite (r : Serial) (i : Nat) (b : Byte) : Serial := { r with ring := r.ring.set i b }

/-- MemRead(DBUF:i, 1) (R79). -/
def dbufRead (d : Display) (i : Fin 5) : Byte := d.dbuf[i]

/-- MemWrite(DBUF:i, 1, c) (R79). -/
def dbufWrite (d : Display) (i : Fin 5) (c : Byte) : Display := { d with dbuf := d.dbuf.set i.val c }

/-- RING_CAP (R38): the number of cells. -/
def ringSize (r : Serial) : Nat := r.ring.length

/-- R62, R196: the index after i, with wraparound. -/
def nextIndex (r : Serial) (i : Nat) : Nat := (i + 1) % ringSize r

/-- The receiver stores one byte at TAIL and advances TAIL (R190). -/
def ringPush (r : Serial) (b : Byte) : Serial := { ringWrite r r.tail b with tail := nextIndex r r.tail }

/-- The reader advances HEAD (R192). -/
def ringPop (r : Serial) : Serial := { r with head := nextIndex r r.head }

/-- What is left of a list of sub-steps: none once all are made. -/
def remaining {α : Type} (f : List α → Pending) : List α → Option Pending
  | [] => none
  | a :: l => some (f (a :: l))

/-- The next sub-step of the command in progress; nothing where there is none or it is held. The byte writes of PLAY and FILL
(R161, R162, R166), the read of RDBYTE (R192), one `send` of WRBYTES (R193): each one atomic step. -/
def runSub (s : State) : State :=
  match s.port.pending with
  | none => s
  | some (.stores []) => s.setPending none
  | some (.stores ((i, c) :: ws)) => (s.withDisplay (dbufWrite s.display i c)).setPending (remaining .stores ws)
  | some .read =>
    if received s.serial then
      ((s.respond ((ringRead s.serial s.serial.head).setWidth 32)).withSerial (ringPop s.serial)).setPending none
    else s
  | some (.send []) => s.setPending none
  | some (.send (b :: bs)) =>
    if s.serial.txrdy then
      ((s.emit b).withSerial { s.serial with txrdy := false }).setPending (remaining .send bs)
    else s

/-- A command with sub-steps is accepted: it makes its first sub-step at once where that is enabled, and stays in progress for the
rest (42_serial.md R201; A4). -/
def acceptCommand (s : State) (c : Option Pending) : State := runSub (s.setPending c)

/-- The contents of the ring have their fixed length and the indices lie inside it (R38 to R40, 00_scope.md R6): the form every
operation on the arrays keeps (DBUF and the tables have it by their type). -/
abbrev Memory.wf (r : Serial) : Prop := 2 ≤ ringSize r ∧ ringSize r ≤ 256 ∧ r.head < ringSize r ∧ r.tail < ringSize r

end Sys2Proof.Machine
end

