-- ==== Sys2Proof/Machine/DisplayMux.lean ====
section
/-! DEFINITION. The commands and the event of the display multiplexer (41_display.md). -/

namespace Sys2Proof.Machine

/-- PWRON (R164): DISP_ON <- 1. -/
def execPwron (s : State) : Result := .next (s.drive s.pulse { s.display with dispOn := true })

/-- PWROFF (R165): LIT <- 0; DISP_ON <- 0. -/
def execPwroff (s : State) : Result := .next (s.drive s.pulse { s.display with lit := false, dispOn := false })

/-- PLAY (R161, R166): nothing from 100000 on, else five byte writes, the first of them in this step. -/
def execPlay (value : Word) (s : State) : Result :=
  if value.toNat ≥ Config.playLimit then .next s
  else .next (acceptCommand s (some (.stores (playStores s.tables value))))

/-- FILL (R162, R166): five byte writes, the first of them in this step. -/
def execFill (code : Byte) (s : State) : Result := .next (acceptCommand s (some (.stores (fillStores code))))

/-- FILLAT (R163): one slot; an index above 4 selects none and changes nothing. -/
def execFillat (code index : Byte) (s : State) : Result :=
  if h : index.toNat < 5 then .next (s.withDisplay (dbufWrite s.display ⟨index.toNat, h⟩ code)) else .next s

/-- Sub-step (a) of a refresh (R167): deactivate the lit digit. -/
def refreshDeactivate (d : Display) : Display := { d with lit := false }

/-- Sub-step (b): advance the cursor, 4 wraps to 0. -/
def refreshAdvance (d : Display) : Display := { d with cursor := d.cursor + 1 }

/-- Sub-step (c): load the segment latch from the slot at the new cursor. -/
def refreshLatch (d : Display) : Display := { d with seglatch := dbufRead d d.cursor }

/-- Sub-step (d): activate the digit at the cursor. -/
def refreshActivate (d : Display) : Display := { d with lit := true }

/-- One sub-step of a refresh, its pin configuration observed (R168). -/
def refreshStep (f : Display → Display) (s : State) : State := s.drive s.pulse (f s.display)

/-- EV_REFRESH (R167): lost while the display is off; else the four sub-steps in order, one atomic step. -/
def execEvRefresh (s : State) : Result :=
  if s.display.dispOn then
    .next
      (refreshStep refreshActivate
        (refreshStep refreshLatch (refreshStep refreshAdvance (refreshStep refreshDeactivate s))))
  else .next s

end Sys2Proof.Machine
end

