-- ==== Sys2Proof/Machine/PulseEngine.lean ====
section
/-! DEFINITION. The commands and events of the pulse timing engine (40_pulse_engine.md). -/

namespace Sys2Proof.Machine

/-- The arm transition (R120): not accepted while BUSY = 1, and then nothing changes. -/
def arm (s : State) : State :=
  if s.pulse.busy then s
  else
    s.withPulse
      { s.pulse with
        divcnt := 0
        tcnt := 0
        divrun := true
        pstate := .delay
        busy := true
        cmp := s.pulse.delayTicks }

/-- ARM (R121). -/
def execArm (s : State) : Result := .next (arm s)

/-- EV_TRIG (R135). -/
def execEvTrig (s : State) : Result := .next (arm s)

/-- SETMAN (R122): nothing in automatic mode; unpredictable in manual mode while BUSY = 1 (R126). -/
def execSetman (delay width : Word) (s : State) : Result :=
  if manualMode s.pulse then
    if s.pulse.busy then .fault .parameterLoadWhileBusy
    else .next (s.withPulse (loadManual s.pulse delay width))
  else .next s

/-- SETAUTO (R123): unpredictable while BUSY = 1 (R126). -/
def execSetauto (s : State) : Result :=
  if s.pulse.busy then .fault .parameterLoadWhileBusy
  else .next (s.withPulse (loadAuto s.pulse s.tables))

/-- GETSTATE (R124). -/
def execGetstate (s : State) : Result := .next (s.respond (s.pulse.pstate.code.setWidth 32))

/-- GETBUSY (R125). -/
def execGetbusy (s : State) : Result := .next (s.respond ((bit s.pulse.busy).setWidth 32))

/-- GETDELAY (R127). -/
def execGetdelay (s : State) : Result := .next (s.respond (toApiUnits s.pulse.delayTicks s.pulse.tickPrescale))

/-- GETWIDTH (R128). -/
def execGetwidth (s : State) : Result := .next (s.respond (toApiUnits s.pulse.widthTicks s.pulse.tickPrescale))

/-- SETMODE (R129). -/
def execSetmode (mode : Byte) (s : State) : Result := .next (s.withPulse { s.pulse with mode := mode })

/-- GETMODE (R130). -/
def execGetmode (s : State) : Result := .next (s.respond (s.pulse.mode.setWidth 32))

/-- The registers after a match (R133 in Delay, R134 in Width). In Complete no match can happen; R139 leaves PSTATE as it was, and
nothing else is written (A13). -/
def matchRegs (p : Pulse) : Pulse :=
  match p.pstate with
  | .delay => { p with pstate := .width, cmp := p.widthTicks, out := true }
  | .width => { p with out := false, divrun := false, busy := false, pstate := .complete }
  | .complete => p

/-- The registers after a tick (R132): the count goes up by one modulo 65536; where it equals CMP it is cleared and the match
follows. -/
def tickRegs (p : Pulse) : Pulse :=
  if p.tcnt + 1 = p.cmp then matchRegs { p with tcnt := 0 } else { p with tcnt := p.tcnt + 1 }

/-- The registers after one base-clock edge (R131). -/
def baseRegs (p : Pulse) : Pulse :=
  if p.divrun then
    if p.divcnt.toNat + 1 = p.tickPrescale.toNat then tickRegs { p with divcnt := 0 }
    else { p with divcnt := p.divcnt + 1 }
  else p

/-- EV_BASE (R131): the edge, the tick and the match it causes are one atomic step. -/
def execEvBase (s : State) : Result := .next (s.drive (baseRegs s.pulse) s.display)

end Sys2Proof.Machine
end

