-- ==== Sys2Proof/Machine/ResetEvent.lean ====
section
/-! DEFINITION. The reset event (70_reset_and_hazards.md R250 to R252). -/

namespace Sys2Proof.Machine

/-- EV_RESET (R250, R251): every register takes its reset value, the cells of RING become unspecified (a fresh draw of the free
values), a command in progress or partly received is dropped; the tables are unchanged, and so is what the outside world has observed
and still sends (A17). -/
def execEvReset (s : State) : Result :=
  .next
    { s.drive Pulse.reset Display.reset with
      serial := Serial.reset s.free (ringSize s.serial)
      port := Port.reset
      free := s.free + 1 }

end Sys2Proof.Machine
end

