-- ==== Sys2Proof/Machine/SerialBuffer.lean ====
section
/-! DEFINITION. The commands and events of the serial receive buffer and the transmit path (42_serial.md). -/

namespace Sys2Proof.Machine

/-- RECEIVED (R191): 1 if HEAD ≠ TAIL, else 0. -/
def execReceived (s : State) : Result := .next (s.respond ((bit (received s.serial)).setWidth 32))

/-- RDBYTE (R192): held until the ring is not empty; then the read and the advance of HEAD are one atomic step. -/
def execRdbyte (s : State) : Result := .next (acceptCommand s (some .read))

/-- WRBYTES (R193): one held sub-step per byte handed to the transmitter; an empty payload completes at once. -/
def execWrbytes (payload : List Byte) (s : State) : Result := .next (acceptCommand s (remaining .send (sentBytes payload)))

/-- FLUSH (R194): HEAD <- 0; TAIL <- 0, one atomic step. -/
def execFlush (s : State) : Result := .next (s.withSerial { s.serial with head := 0, tail := 0 })

/-- EV_RX (R190): the byte goes to RING[TAIL] and TAIL advances; never blocks, never checks for full. -/
def execEvRx (b : Byte) (s : State) : Result := .next (s.withSerial (ringPush s.serial b))

/-- EV_TXRDY (R195). -/
def execEvTxrdy (level : Byte) (s : State) : Result := .next (s.withSerial { s.serial with txrdy := readyLevel level })

end Sys2Proof.Machine
end

