-- ==== Sys2Proof/Machine/Dispatch.lean ====
section
/-! DEFINITION. The meaning of every instruction, one arm per constructor. -/

namespace Sys2Proof.Machine

def exec (i : Instr) (s : State) : Host.Outcome State Fault Refusal :=
  match i with
  | .arm => Sys2Proof.Machine.execArm s
  | .setman delay width => Sys2Proof.Machine.execSetman delay width s
  | .setauto => Sys2Proof.Machine.execSetauto s
  | .getstate => Sys2Proof.Machine.execGetstate s
  | .getbusy => Sys2Proof.Machine.execGetbusy s
  | .getdelay => Sys2Proof.Machine.execGetdelay s
  | .getwidth => Sys2Proof.Machine.execGetwidth s
  | .setmode mode => Sys2Proof.Machine.execSetmode mode s
  | .getmode => Sys2Proof.Machine.execGetmode s
  | .pwron => Sys2Proof.Machine.execPwron s
  | .pwroff => Sys2Proof.Machine.execPwroff s
  | .play value => Sys2Proof.Machine.execPlay value s
  | .fill code => Sys2Proof.Machine.execFill code s
  | .fillat code index => Sys2Proof.Machine.execFillat code index s
  | .received => Sys2Proof.Machine.execReceived s
  | .rdbyte => Sys2Proof.Machine.execRdbyte s
  | .wrbytes payload => Sys2Proof.Machine.execWrbytes payload s
  | .flush => Sys2Proof.Machine.execFlush s
  | .evTrig => Sys2Proof.Machine.execEvTrig s
  | .evBase => Sys2Proof.Machine.execEvBase s
  | .evRefresh => Sys2Proof.Machine.execEvRefresh s
  | .evRx b => Sys2Proof.Machine.execEvRx b s
  | .evTxrdy level => Sys2Proof.Machine.execEvTxrdy level s
  | .evReset => Sys2Proof.Machine.execEvReset s

end Sys2Proof.Machine
end

