-- ==== Sys2Proof/Machine/Fetch.lean ====
section
/-! DEFINITION. What each kind of turn does: a whole trace item (30_encoding.md R104), one byte of the command port (R90, R97), one
sub-step of the command in progress. -/

namespace Sys2Proof.Machine

/-- The stimulus with its trace replaced. -/
def State.withTrace (s : State) (bs : List Byte) : State := s.withStim { s.stim with trace := bs }

/-- The stimulus with its turns replaced. -/
def State.withTurns (s : State) (ts : List Turn) : State := s.withStim { s.stim with turns := ts }

/-- The first item of the trace steps, whole (R104). An event always may; a command only when the host is inside none (R104 (b), A14);
a reserved code is refused (U1, A5); at the end of the trace, or inside an item, nothing is there to step (R97, A3). -/
def stepItem (s : State) : Result :=
  match decode s.stim.trace with
  | .ok i rest => if i.isEvent || hostFree s then exec i (s.withTrace rest) else .refused (.commandWhilePending i)
  | .reserved code => .refused (.reservedCode code)
  | .incomplete => .next s

/-- The command port accepts one byte (R90): not while a command is in progress; a command takes effect when its last byte has been
accepted, until then it changes nothing (R97); a reserved opcode is refused (U1, A5). -/
def stepPortByte (s : State) : Result :=
  match s.stim.trace with
  | [] => .next s
  | b :: rest =>
    if s.port.pending.isSome then .next s
    else
      match decodePort (s.port.accepted ++ [b]) with
      | .ok i _ => exec i ((s.withTrace rest).withPort { s.port with accepted := [] })
      | .reserved code => .refused (.reservedCode code)
      | .incomplete => .next ((s.withTrace rest).withPort { s.port with accepted := s.port.accepted ++ [b] })

/-- The order of R104, where no turn says otherwise: an enabled sub-step of the command in progress first, else the next item. -/
def stepInOrder (s : State) : Result := if subReady s then .next (runSub s) else stepItem s

end Sys2Proof.Machine
end

