-- ==== Sys2Proof/Machine/Step.lean ====
section
/-! DEFINITION. One atomic step of the block, and where an instruction is placed so that the next step runs it. -/

namespace Sys2Proof.Machine

/-- One atomic step of whichever agent moves next (00_scope.md R7): the turn at the head of `turns`, or with none left the order of
30_encoding.md R104 (A1). -/
def step (s : State) : Host.Outcome State Fault Refusal :=
  match s.stim.turns with
  | [] => stepInOrder s
  | .item :: ts => stepItem (s.withTurns ts)
  | .command :: ts => .next (runSub (s.withTurns ts))
  | .portByte :: ts => stepPortByte (s.withTurns ts)

/-- The instruction's bytes stand at the front of the trace, the next turn takes them, and the host is inside no command (A2). -/
def State.withFetchWord (s : State) (nbits w : Nat) : State :=
  (s.withPort { accepted := [], pending := none }).withStim
    { trace := tableWordBytes nbits w ++ s.stim.trace, turns := .item :: s.stim.turns }

end Sys2Proof.Machine
end

