-- ==== Sys2Proof/Machine/Trace.lean ====
section
/-! DEFINITION. Stimulus traces (30_encoding.md R104, R105): how one is loaded, the order of coinciding stimuli (60_exceptions.md R228), the
bytes of the response stream (R95). -/

namespace Sys2Proof.Machine

/-- A machine with a trace to run in the order of R104 (A2). -/
def State.loadTrace (s : State) (bs : List Byte) : State := s.withStim { trace := bs, turns := [] }

/-- Inserts a stimulus before the first one of lower priority. -/
def insertStimulus (i : Instr) : List Instr → List Instr
  | [] => [i]
  | j :: js => if i.priority ≤ j.priority then i :: j :: js else j :: insertStimulus i js

/-- R228: stimuli of the same instant, in the order the block takes them. The step does not build this order in: it is one of the orders
a trace can spell (A1, A19). -/
def coinciding : List Instr → List Instr
  | [] => []
  | i :: is => insertStimulus i (coinciding is)

/-- The trace of stimuli that fall in the same instant. -/
def coincidingTrace (is : List Instr) : List Byte := (coinciding is).flatMap encode

/-- The response stream as bytes: each response as four bytes, least significant first (R95). -/
def responseBytes (o : Observed) : List Byte := o.resp.flatMap le32Bytes

end Sys2Proof.Machine
end

