-- ==== Sys2Proof/Machine/Assembler.lean ====
section
/-! DEFINITION. The textual form of commands and event records (30_encoding.md R101, R102) and its translation to bytes. Text is a list of
characters. What R101 leaves open is in A18. -/

namespace Sys2Proof.Asm

/-- A token of one line. -/
inductive Token where
  | word (cs : List Char)
  | str (bs : List Byte)
  | comma
  | star
  deriving DecidableEq, Repr

/-- The value of a digit character in base 16. -/
def hexDigit (c : Char) : Option Nat :=
  if '0' ≤ c ∧ c ≤ '9' then some (c.toNat - 48)
  else if 'A' ≤ c ∧ c ≤ 'F' then some (c.toNat - 55)
  else if 'a' ≤ c ∧ c ≤ 'f' then some (c.toNat - 87)
  else none

/-- A digit below the base. -/
def digitIn (base : Nat) (c : Char) : Option Nat := (hexDigit c).filter (· < base)

/-- Digits, most significant first, onto what has been read already. -/
def digitsFrom (base acc : Nat) : List Char → Option Nat
  | [] => some acc
  | c :: cs => (digitIn base c).bind fun d => digitsFrom base (acc * base + d) cs

/-- A number: decimal, or hexadecimal with a 0x prefix (R101). -/
def number : List Char → Option Nat
  | [] => none
  | '0' :: 'x' :: c :: cs => digitsFrom 16 0 (c :: cs)
  | cs => digitsFrom 10 0 cs

/-- Where the scanner of a line stands: between tokens, inside a word, inside a string, after a backslash, after the first and
second character of a hexadecimal escape. -/
inductive Scan where
  | gap
  | inWord (rev : List Char)
  | inStr (rev : List Byte)
  | esc (rev : List Byte)
  | hex1 (rev : List Byte)
  | hex2 (rev : List Byte) (hi : Nat)

/-- A character that may stand in a word: letters, digits and the underscore. -/
def wordChar (c : Char) : Bool := c.isAlphanum || c = '_'

/-- The escapes of R101 but for the hexadecimal one. -/
def escape : Char → Option Byte
  | 'n' => some 0x0A
  | 'r' => some 0x0D
  | '\\' => some 0x5C
  | '"' => some 0x22
  | _ => none

/-- The tokens of one line; a semicolon outside a string starts a comment (R101); none where the line is not lexically right. -/
def scan : Scan → List Char → Option (List Token)
  | .gap, [] => some []
  | .gap, c :: cs =>
    if c = ';' then some []
    else if c = ' ' ∨ c = '\t' then scan .gap cs
    else if c = ',' then (scan .gap cs).map (.comma :: ·)
    else if c = '*' then (scan .gap cs).map (.star :: ·)
    else if c = '"' then scan (.inStr []) cs
    else if wordChar c then scan (.inWord [c]) cs
    else none
  | .inWord rev, [] => some [.word rev.reverse]
  | .inWord rev, c :: cs =>
    if wordChar c then scan (.inWord (c :: rev)) cs
    else if c = ';' then some [.word rev.reverse]
    else if c = ' ' ∨ c = '\t' then (scan .gap cs).map (.word rev.reverse :: ·)
    else if c = ',' then (scan .gap cs).map (fun ts => .word rev.reverse :: .comma :: ts)
    else if c = '*' then (scan .gap cs).map (fun ts => .word rev.reverse :: .star :: ts)
    else none
  | .inStr _, [] => none
  | .inStr rev, c :: cs =>
    if c = '"' then (scan .gap cs).map (.str rev.reverse :: ·)
    else if c = '\\' then scan (.esc rev) cs
    else if c.toNat < 128 then scan (.inStr (BitVec.ofNat 8 c.toNat :: rev)) cs
    else none
  | .esc _, [] => none
  | .esc rev, c :: cs =>
    if c = 'x' then scan (.hex1 rev) cs
    else match escape c with
      | some b => scan (.inStr (b :: rev)) cs
      | none => none
  | .hex1 _, [] => none
  | .hex1 rev, c :: cs =>
    match hexDigit c with
    | some hi => scan (.hex2 rev hi) cs
    | none => none
  | .hex2 _ _, [] => none
  | .hex2 rev hi, c :: cs =>
    match hexDigit c with
    | some lo => scan (.inStr (BitVec.ofNat 8 (16 * hi + lo) :: rev)) cs
    | none => none

/-- The operands of an item, separated by commas. -/
def operands : List Token → Option (List Nat)
  | [] => some []
  | [.word w] => (number w).map fun n => [n]
  | .word w :: .comma :: ts =>
    match number w, operands ts with
    | some n, some (m :: ns) => some (n :: m :: ns)
    | _, _ => none
  | _ => none

/-- A number that fits an operand of `n` bits. -/
def fits (n v : Nat) : Option (BitVec n) := if v < 2 ^ n then some (BitVec.ofNat n v) else none

/-- A mnemonic and its operands: R93, R103, and the pseudo-commands of R102; the operand order is the source's (R101). -/
def item (name : List Char) (ops : List Nat) : Option Instr :=
  match String.ofList name, ops with
  | "ARM", [] => some .arm
  | "SETMAN", [d, w] => (fits 32 d).bind fun d => (fits 32 w).map fun w => .setman d w
  | "SETAUTO", [] => some .setauto
  | "GETSTATE", [] => some .getstate
  | "GETBUSY", [] => some .getbusy
  | "GETDELAY", [] => some .getdelay
  | "GETWIDTH", [] => some .getwidth
  | "SETMODE", [m] => (fits 8 m).map .setmode
  | "GETMODE", [] => some .getmode
  | "PWRON", [] => some .pwron
  | "PWROFF", [] => some .pwroff
  | "PLAY", [v] => (fits 32 v).map .play
  | "FILL", [c] => (fits 8 c).map .fill
  | "FILLAT", [c, i] => (fits 8 c).bind fun c => (fits 8 i).map fun i => .fillat c i
  | "RECEIVED", [] => some .received
  | "RDBYTE", [] => some .rdbyte
  | "FLUSH", [] => some .flush
  | "EV_TRIG", [] => some .evTrig
  | "EV_BASE", [] => some .evBase
  | "EV_REFRESH", [] => some .evRefresh
  | "EV_RX", [b] => (fits 8 b).map .evRx
  | "EV_TXRDY", [l] => (fits 8 l).map .evTxrdy
  | "EV_RESET", [] => some .evReset
  | "BLANK", [] => some .blank
  | "ALLSEG", [] => some .allseg
  | "DASH", [] => some .dash
  | "AUTO", [] => some .auto
  | "MANUAL", [] => some .manual
  | _, _ => none

/-- One item without repetition; the operand of WRBYTES is a string that holds no TERM byte (R101, R106). -/
def plainItem : List Token → Option Instr
  | [.word w, .str bs] => if String.ofList w = "WRBYTES" ∧ payloadOk bs then some (.wrbytes bs) else none
  | .word w :: ts => (operands ts).bind (item w)
  | _ => none

/-- The instructions of a line: none on an empty one; "`n * ITEM` repeats an item n times" (R101). -/
def line : List Token → Option (List Instr)
  | [] => some []
  | .word n :: .star :: ts =>
    match number n, plainItem ts with
    | some k, some i => some (List.replicate k i)
    | _, _ => none
  | ts => (plainItem ts).map fun i => [i]

/-- The instructions of a line of text. -/
def assembleLine (cs : List Char) : Option (List Instr) := (scan .gap cs).bind line

/-- The lines of a text, one command a line (R101). -/
def linesOf : List Char → List (List Char)
  | [] => [[]]
  | c :: cs =>
    match linesOf cs with
    | [] => [[]]
    | l :: ls => if c = '\n' then [] :: l :: ls else (c :: l) :: ls

/-- The instructions of several lines; none where one of them is not right. -/
def assembleLines : List (List Char) → Option (List Instr)
  | [] => some []
  | l :: ls =>
    match assembleLine l, assembleLines ls with
    | some is, some js => some (is ++ js)
    | _, _ => none

/-- The bytes of a text: the assembler appends the TERM byte of WRBYTES (R101). -/
def assemble (cs : List Char) : Option (List Byte) := (assembleLines (linesOf cs)).map (·.flatMap encode)

end Sys2Proof.Asm
end

