-- ==== Sys2Proof/Safety.lean ====
section
/-! DEFINITION. What the statements use: the invariants of the block (10_state.md R31, R37, R38 to R43), the runs of several
instructions, and the premises the spec asks claims to carry (93_implementation_defined.md U2, U3). -/

namespace Sys2Proof.Machine

/-- R31 (i) to (iv), (vi) to (viii), with the legal values of TICKPRESCALE and DIVCNT (R21, R23). -/
abbrev Pulse.Inv (p : Pulse) : Prop :=
  (p.tickPrescale = 1 ∨ p.tickPrescale = 2) ∧
  p.divcnt.toNat < p.tickPrescale.toNat ∧
  (p.busy = false → p.divcnt = 0) ∧
  p.divrun = p.busy ∧
  (p.busy = true → p.pstate ≠ .complete) ∧
  (p.out = true ↔ p.pstate = .width) ∧
  (p.pstate = .width → p.busy = true) ∧
  (p.busy = true → p.pstate = .delay → p.cmp = p.delayTicks) ∧
  (p.pstate = .width → p.cmp = p.widthTicks) ∧
  (p.busy = true → p.tcnt = p.cmp → p.tcnt = 0)

/-- R37 (ii): LIT = 1 implies DISP_ON = 1; the range of CURSOR (i) is its type. -/
abbrev Display.Inv (d : Display) : Prop := d.lit = true → d.dispOn = true

/-- R43: the pinned entries of AUTOTABLE; R45: the segment codes are pairwise distinct with the decimal-point bit clear, and R44:
DP_MASK is a single bit. -/
abbrev Tables.Inv (t : Tables) : Prop :=
  t.autoTable[0] = ⟨5000, 6000⟩ ∧ t.autoTable[11] = ⟨60000, 6000⟩ ∧ t.autoTable[19] = ⟨5000, 11000⟩ ∧
  (∀ i j : Fin 10, t.segTable[i] = t.segTable[j] → i = j) ∧
  (∀ i : Fin 10, t.segTable[i] &&& t.dpMask = 0) ∧
  (∃ k : Fin 8, t.dpMask = BitVec.twoPow 8 k.val)

/-- A command in progress has a sub-step left. -/
def Pending.live : Pending → Bool
  | .stores ws => !ws.isEmpty
  | .read => true
  | .send bs => !bs.isEmpty

/-- The port is inside at most one command, which has something left to do; what it has accepted is no complete command (R90, R97). -/
abbrev Port.Inv (q : Port) : Prop :=
  (∀ c ∈ q.pending, c.live = true ∧ q.accepted = []) ∧ decodePort q.accepted = .incomplete

/-- R37 (iii): at most one digit line is active. -/
def oneDigit (c : Pins) : Bool :=
  match c.display with
  | none => true
  | some (dig, _) => decide (∀ i j : Fin 5, dig.getLsbD i.val = true → dig.getLsbD j.val = true → i = j)

/-- Two configurations that may follow one another (R105, R168): they differ; while the display stays driven the segment lines change
only while no digit line is active, and one digit follows another only through a configuration with none. -/
def mayFollow (a b : Pins) : Bool :=
  decide (a ≠ b) &&
  match a.display, b.display with
  | some (da, sa), some (db, sb) => (decide (sa = sb) || (decide (da = 0) && decide (db = 0))) && (decide (da = 0) || decide (db = 0) || decide (da = db))
  | _, _ => true

/-- The log of pin configurations ends with the present one, never shows two digits at once, and every change in it is allowed. -/
abbrev State.LogInv (s : State) : Prop :=
  s.seen.pins.getLast? = some s.pins ∧ (∀ c ∈ s.seen.pins, oneDigit c = true) ∧
  s.seen.pins.IsChain (fun a b => mayFollow a b = true)

/-- The invariant of the whole machine. -/
abbrev State.Inv (s : State) : Prop :=
  s.pulse.Inv ∧ s.display.Inv ∧ Memory.wf s.serial ∧ s.tables.Inv ∧ s.port.Inv ∧ s.LogInv

/-- R126, R255: a parameter load is allowed only while BUSY = 0. -/
abbrev State.loadAllowed (s : State) : Prop := s.pulse.busy = false

/-- The premise of U3 for claims about pulse timing: both targets are at least 1. -/
abbrev Pulse.loaded (p : Pulse) : Prop := 1 ≤ p.delayTicks.toNat ∧ 1 ≤ p.widthTicks.toNat

/-- Runs the meanings of several instructions one after another, stopping at the first fault or refusal. -/
def execAll : List Instr → State → Result
  | [], s => .next s
  | i :: is, s =>
    match exec i s with
    | .next t => execAll is t
    | .fault r => .fault r
    | .refused r => .refused r

/-- `n` sub-steps of the command in progress, nothing in between. -/
def subSteps : Nat → State → State
  | 0, s => s
  | n + 1, s => subSteps n (runSub s)

/-- The transmitter reports ready, and the command in progress makes its next sub-step (42_serial.md R193, R195). -/
def readyRound (s : State) : State :=
  match exec (.evTxrdy 1) s with
  | .next t => runSub t
  | .fault _ => s
  | .refused _ => s

/-- `n` such rounds. -/
def readyRounds : Nat → State → State
  | 0, s => s
  | n + 1, s => readyRounds n (readyRound s)

/-- The codes of a trace that stand for a command or an event (30_encoding.md R93, R103). -/
def assignedCode (code : Byte) : Bool :=
  let n := code.toNat
  (decide (0x10 ≤ n) && decide (n ≤ 0x18)) || (decide (0x20 ≤ n) && decide (n ≤ 0x24)) || (decide (0x30 ≤ n) && decide (n ≤ 0x33)) ||
    (decide (0x80 ≤ n) && decide (n ≤ 0x84)) || decide (n = 0x8F)

/-- What an item of a split trace may be (30_encoding.md R96, R97, R107): a well-formed instruction, a code that stands for nothing, or
bytes that end inside an item. -/
def legalItem : Item → Bool
  | .instr i => i.wf
  | .reserved code => !assignedCode code
  | .incomplete bs => !bs.isEmpty && decide (decode bs = .incomplete)

/-- A list of items as R107 has it: each is legal, and only the last one may be incomplete. -/
abbrev LegalSplit (items : List Item) : Prop :=
  (∀ it ∈ items, legalItem it = true) ∧ ∀ k r, items[k]? = some (.incomplete r) → k + 1 = items.length

/-- The three sub-blocks, and the reset that touches them all (00_scope.md R1). -/
inductive SubBlock where
  | pulse
  | display
  | serial
  | all
  deriving DecidableEq, Repr

/-- The sub-block each command and event belongs to (30_encoding.md R93, R103). -/
def blockOf : Instr → SubBlock
  | .arm => .pulse
  | .setman _ _ => .pulse
  | .setauto => .pulse
  | .getstate => .pulse
  | .getbusy => .pulse
  | .getdelay => .pulse
  | .getwidth => .pulse
  | .setmode _ => .pulse
  | .getmode => .pulse
  | .pwron => .display
  | .pwroff => .display
  | .play _ => .display
  | .fill _ => .display
  | .fillat _ _ => .display
  | .received => .serial
  | .rdbyte => .serial
  | .wrbytes _ => .serial
  | .flush => .serial
  | .evTrig => .pulse
  | .evBase => .pulse
  | .evRefresh => .display
  | .evRx _ => .serial
  | .evTxrdy _ => .serial
  | .evReset => .all

/-- Loads no parameters and is no reset: what R138 lets step during a cycle. -/
def keepsParameters : Instr → Bool
  | .setman _ _ => false
  | .setauto => false
  | .evReset => false
  | .arm => true
  | .getstate => true
  | .getbusy => true
  | .getdelay => true
  | .getwidth => true
  | .setmode _ => true
  | .getmode => true
  | .pwron => true
  | .pwroff => true
  | .play _ => true
  | .fill _ => true
  | .fillat _ _ => true
  | .received => true
  | .rdbyte => true
  | .wrbytes _ => true
  | .flush => true
  | .evTrig => true
  | .evBase => true
  | .evRefresh => true
  | .evRx _ => true
  | .evTxrdy _ => true

/-- Ticks a compare target asks for: a target of 0 is read as 65536 (40_pulse_engine.md R132, R138). -/
def targetTicks (n : Ticks) : Nat := if n = 0 then 65536 else n.toNat

/-- A safe step: the machine neither faults nor refuses. -/
def safeStep (s : State) : Bool :=
  match step s with
  | .next _ => true
  | .fault _ => false
  | .refused _ => false

end Sys2Proof.Machine
end

