-- ==== Sys2Proof/Certificates/Slice0/Obligations.lean ====
section
/-! DEFINITION. The statements for the provers, grouped as in the spec: encoding and the step, pulse engine, display, serial buffer,
reset, the whole machine. A statement that names an answer of exec in full (`exec i s = .next t` for a t written out) says the
instruction's result, its completion and its frame at once. -/

open Sys2Proof Sys2Proof.Machine

/-! ## Encoding and the step -/

/-- 30_encoding.md R91 to R94, R103, R106: no bit of an encoding is dropped. -/
def Obligations.DecodeReadsBackEveryEncoding : Prop :=
  ∀ (i : Instr) (rest : List Byte), i.wf = true → decode (encode i ++ rest) = .ok i rest

/-- R99: "no encoding that executes as another command": whatever decodes is the one encoding of a well-formed instruction. -/
def Obligations.EveryDecodedItemIsItsEncoding : Prop :=
  ∀ (bs : List Byte) (i : Instr) (rest : List Byte), decode bs = .ok i rest → i.wf = true ∧ bs = encode i ++ rest

/-- R103: events never travel on the command port, where R96 reserves their codes, the first byte of each event record; every command
decodes there. -/
def Obligations.PortCarriesCommandsOnly : Prop :=
  ∀ (i : Instr) (rest : List Byte), i.wf = true →
    (i.isEvent = false → decodePort (encode i ++ rest) = .ok i rest) ∧
    (i.isEvent = true → ∃ code, (encode i).head? = some code ∧ decodePort (encode i ++ rest) = .reserved code)

/-- The words written out in the table of R101. -/
def Obligations.SpecExampleWordsDecode : Prop :=
  decode [0x10] = .ok .arm [] ∧
  decode [0x11, 0xE0, 0x2E, 0x00, 0x00, 0x88, 0x13, 0x00, 0x00] = .ok (.setman 12000 5000) [] ∧
  decode [0x17, 0x01] = .ok (.setmode 1) [] ∧
  decode [0x22, 0x39, 0x30, 0x00, 0x00] = .ok (.play 12345) [] ∧
  decode [0x24, 0x76, 0x03] = .ok (.fillat 0x76 3) [] ∧
  decode [0x32, 0x4F, 0x4B, 0x0A, 0x00] = .ok (.wrbytes [0x4F, 0x4B, 0x0A]) [] ∧
  decode [0x83, 0x41] = .ok (.evRx 0x41) []

/-- R107: any byte string splits, uniquely, into items that spell it again: well-formed instructions, each what the decoder reads where it
stands; unassigned codes; and at most one incomplete item, the last, whose bytes decode to incomplete. -/
def Obligations.TraceSplitsIntoItems : Prop :=
  ∀ bs : List Byte,
    LegalSplit (splitTrace bs) ∧
    (splitTrace bs).flatMap Item.bytes = bs ∧
    (∀ k i, (splitTrace bs)[k]? = some (.instr i) →
      decode (((splitTrace bs).drop k).flatMap Item.bytes) = .ok i (((splitTrace bs).drop (k + 1)).flatMap Item.bytes)) ∧
    (∀ items : List Item, LegalSplit items → items.flatMap Item.bytes = bs → items = splitTrace bs)

/-- R97: every proper beginning of a command is incomplete, never another command and never reserved. -/
def Obligations.BeginningOfCommandIsIncomplete : Prop :=
  ∀ (i : Instr) (p q : List Byte), i.wf = true → i.isEvent = false → encode i = p ++ q → q ≠ [] → decodePort p = .incomplete

/-- U1 of 93_implementation_defined.md with R96 and R103: a code that stands for nothing is refused by name, and only such a code.
The refusal is the treatment the spec orders of a model (A5), not the hardware's no-op. -/
def Obligations.ReservedCodesAreRefused : Prop :=
  ∀ (s : State) (code : Byte) (bs : List Byte), s.stim.trace = code :: bs → s.stim.turns = [] → subReady s = false →
    (assignedCode code = false → step s = .refused (.reservedCode code)) ∧
    (assignedCode code = true → ∀ c, decode s.stim.trace ≠ .reserved c)

/-- 30_encoding.md R104: a step runs the instruction the bytes at the front of the trace decode to, past those bytes; in the order of
R104, or where the turn says so (A1). -/
def Obligations.StepRunsTheDecodedInstruction : Prop :=
  ∀ (s : State) (i : Instr) (rest : List Byte), decode s.stim.trace = .ok i rest → (i.isEvent = true ∨ hostFree s = true) →
    (s.stim.turns = [] → subReady s = false → step s = exec i { s with stim := ⟨rest, []⟩ }) ∧
    (∀ ts, s.stim.turns = .item :: ts → step s = exec i { s with stim := ⟨rest, ts⟩ })

/-- The instruction placed by withFetchWord is the one the very next step runs (A2). -/
def Obligations.StepRunsThePlacedInstruction : Prop :=
  ∀ (s : State) (nbits w : Nat) (i : Instr), decodeTableWord nbits w = some i →
    step (s.withFetchWord nbits w) = exec i { s with port := ⟨[], none⟩ }

/-- R104 (b), U13: a command item met while the host is inside another command is refused; R201: an event is not (it is run by
StepRunsTheDecodedInstruction). -/
def Obligations.CommandInsideCommandIsRefused : Prop :=
  ∀ (s : State) (i : Instr) (rest : List Byte), decode s.stim.trace = .ok i rest → i.isEvent = false → hostFree s = false →
    s.stim.turns = [] → subReady s = false → step s = .refused (.commandWhilePending i)

/-- R104 (a): an enabled sub-step of the command in progress is the next step; with nothing enabled and no whole item left the machine
stays as it is (R97, U16; the idling step is the model's choice, A3). -/
def Obligations.PendingSubStepComesFirst : Prop :=
  ∀ s : State,
    (s.stim.turns = [] → subReady s = true → step s = .next (runSub s)) ∧
    (∀ ts, s.stim.turns = .command :: ts → step s = .next (runSub { s with stim := ⟨s.stim.trace, ts⟩ })) ∧
    (s.stim.turns = [] → subReady s = false → decode s.stim.trace = .incomplete → step s = .next s) ∧
    (subReady s = false → runSub s = s)

/-- R90: "A command takes effect when its last byte has been accepted; until then it changes nothing", and the first byte of the next
command is not accepted before the current one has finished (the turn then passes: the model's choice, A14). A code that R96 reserves on
the port, every event code included, is refused there by name (U1; the refusal is A5). -/
def Obligations.CommandTakesEffectAtItsLastByte : Prop :=
  ∀ (s : State) (b : Byte) (rest : List Byte) (ts : List Turn), s.stim = ⟨b :: rest, .portByte :: ts⟩ →
    (s.port.pending = none → decodePort (s.port.accepted ++ [b]) = .incomplete →
      step s = .next { s with stim := ⟨rest, ts⟩, port := ⟨s.port.accepted ++ [b], none⟩ }) ∧
    (s.port.pending = none → ∀ i r, decodePort (s.port.accepted ++ [b]) = .ok i r →
      step s = exec i { s with stim := ⟨rest, ts⟩, port := ⟨[], none⟩ }) ∧
    (s.port.pending = none → s.port.accepted = [] → assignedCode b = false ∨ 0x80 ≤ b.toNat →
      step s = .refused (.reservedCode b)) ∧
    (s.port.pending ≠ none → step s = .next { s with stim := ⟨b :: rest, ts⟩ })

/-- R101: the ten rows of the spec's table of texts and bytes; R102: the five pseudo-commands. -/
def Obligations.AssemblerGivesTheSpecBytes : Prop :=
  Asm.assemble "ARM".toList = some [0x10] ∧
  Asm.assemble "SETMAN 12000, 5000".toList = some [0x11, 0xE0, 0x2E, 0x00, 0x00, 0x88, 0x13, 0x00, 0x00] ∧
  Asm.assemble "SETMAN 70000, 6000".toList = some [0x11, 0x70, 0x11, 0x01, 0x00, 0x70, 0x17, 0x00, 0x00] ∧
  Asm.assemble "SETMODE 1".toList = some [0x17, 0x01] ∧
  Asm.assemble "PLAY 12345".toList = some [0x22, 0x39, 0x30, 0x00, 0x00] ∧
  Asm.assemble "PLAY 100000".toList = some [0x22, 0xA0, 0x86, 0x01, 0x00] ∧
  Asm.assemble "FILL 0x40".toList = some [0x23, 0x40] ∧
  Asm.assemble "FILLAT 0x76, 3".toList = some [0x24, 0x76, 0x03] ∧
  Asm.assemble "WRBYTES \"OK\\n\"".toList = some [0x32, 0x4F, 0x4B, 0x0A, 0x00] ∧
  Asm.assemble "RDBYTE".toList = some [0x31] ∧
  Asm.assemble "BLANK\nALLSEG\nDASH\nAUTO\nMANUAL".toList = some [0x23, 0x00, 0x23, 0xFF, 0x23, 0x40, 0x17, 0x00, 0x17, 0x01]

/-! ## Pulse engine -/

/-- R120 for both invokers, ARM (R121) and EV_TRIG (R135): accepted exactly when BUSY = 0, and then the five writes and the load of
the compare target, all else as it was; rejected, nothing changes. -/
def Obligations.ArmBeginsACycleUnlessBusy : Prop :=
  (∀ rest, decode (0x10 :: rest) = .ok .arm rest ∧ decode (0x80 :: rest) = .ok .evTrig rest) ∧
  ∀ (i : Instr) (s : State), i = .arm ∨ i = .evTrig →
    (s.pulse.busy = false →
      exec i s = .next
        { s with
          pulse :=
            { s.pulse with
              divcnt := 0, tcnt := 0, divrun := true, pstate := .delay, busy := true, cmp := s.pulse.delayTicks } }) ∧
    (s.pulse.busy = true → exec i s = .next s)

/-- R122, with BUSY = 0: in manual mode the clamped delay chooses the path and the clamped values are stored, nothing else changes; in
automatic mode nothing is written (also while BUSY = 1, R126). Two clauses rest on decisions of the spec that log entry 7 names (A7): the
coarse bounds 2000 and 5000 hold for the halved width (D15, U17), and the load in automatic mode is a no-op (D16, U5). -/
def Obligations.SetmanStoresClampedParameters : Prop :=
  (∀ rest, ∀ a b, decode (0x11 :: (le32Bytes a ++ le32Bytes b ++ rest)) = .ok (.setman a b) rest) ∧
  ∀ (delay width : Word) (s : State),
    (s.pulse.mode = 0 → exec (.setman delay width) s = .next s) ∧
    (s.pulse.mode ≠ 0 → s.pulse.busy = false →
      ∃ t, exec (.setman delay width) s = .next t ∧
        (max 5000 (min delay.toNat 99999) ≤ 65535 →
          t.pulse.tickPrescale = 1 ∧ t.pulse.delayTicks.toNat = max 5000 (min delay.toNat 99999) ∧
          t.pulse.widthTicks.toNat = max 4000 (min width.toNat 10000)) ∧
        (65535 < max 5000 (min delay.toNat 99999) →
          t.pulse.tickPrescale = 2 ∧ t.pulse.delayTicks.toNat = max 5000 (min delay.toNat 99999) / 2 ∧
          t.pulse.widthTicks.toNat = max 2000 (min (width.toNat / 2) 5000)) ∧
        t = { s with
              pulse :=
                { s.pulse with
                  tickPrescale := t.pulse.tickPrescale, delayTicks := t.pulse.delayTicks, widthTicks := t.pulse.widthTicks } })

/-- R123, with BUSY = 0: the entry at ATCUR is loaded whole, on the fine tick, whatever MODE is, and ATCUR advances modulo 20. -/
def Obligations.SetautoLoadsTheEntryAtTheCursor : Prop :=
  (∀ rest, decode (0x12 :: rest) = .ok .setauto rest) ∧
  ∀ s : State, s.pulse.busy = false →
    ∃ t, exec .setauto s = .next t ∧
      t.pulse.delayTicks = s.tables.autoTable[s.pulse.atcur.val].delay ∧
      t.pulse.widthTicks = s.tables.autoTable[s.pulse.atcur.val].width ∧
      t.pulse.tickPrescale = 1 ∧
      t.pulse.atcur.val = (s.pulse.atcur.val + 1) % 20 ∧
      t = { s with
            pulse :=
              { s.pulse with
                tickPrescale := t.pulse.tickPrescale, delayTicks := t.pulse.delayTicks, widthTicks := t.pulse.widthTicks,
                atcur := t.pulse.atcur } }

/-- R126: a parameter load while BUSY = 1 has no next state; SETMAN in automatic mode is no such load. -/
def Obligations.ParameterLoadWhileBusyFaults : Prop :=
  ∀ (delay width : Word) (s : State), s.pulse.busy = true →
    exec .setauto s = .fault .parameterLoadWhileBusy ∧
    (s.pulse.mode ≠ 0 → exec (.setman delay width) s = .fault .parameterLoadWhileBusy) ∧
    (s.pulse.mode = 0 → exec (.setman delay width) s = .next s)

/-- S5 and R123 (a): from cursor c the k-th SETAUTO loads entry c + k - 1 modulo 20, and 20 of them bring the cursor back. -/
def Obligations.AutoTableRotatesThroughAllEntries : Prop :=
  ∀ (s : State) (k : Nat), s.pulse.busy = false →
    ∃ t, execAll (List.replicate (k + 1) .setauto) s = .next t ∧
      t.pulse.atcur.val = (s.pulse.atcur.val + k + 1) % 20 ∧
      (∀ h : (s.pulse.atcur.val + k) % 20 < 20,
        t.pulse.delayTicks = s.tables.autoTable[(s.pulse.atcur.val + k) % 20].delay ∧
        t.pulse.widthTicks = s.tables.autoTable[(s.pulse.atcur.val + k) % 20].width) ∧
      t.pulse.tickPrescale = 1 ∧ t.pulse.busy = false

/-- R124, R125, R127, R128, R130, R191: the non-blocking queries deliver exactly one response and change nothing else. -/
def Obligations.QueriesRespondAndChangeNothing : Prop :=
  (∀ rest,
    decode (0x13 :: rest) = .ok .getstate rest ∧ decode (0x14 :: rest) = .ok .getbusy rest ∧
    decode (0x15 :: rest) = .ok .getdelay rest ∧ decode (0x16 :: rest) = .ok .getwidth rest ∧
    decode (0x18 :: rest) = .ok .getmode rest ∧ decode (0x30 :: rest) = .ok .received rest) ∧
  ∀ s : State,
    let answers := fun (i : Instr) (n : Nat) =>
      ∃ v : Word, v.toNat = n ∧ exec i s = .next { s with seen := { s.seen with resp := s.seen.resp ++ [v] } }
    answers .getstate (if s.pulse.pstate = .delay then 0 else if s.pulse.pstate = .width then 1 else 2) ∧
    answers .getbusy (if s.pulse.busy then 1 else 0) ∧
    answers .getdelay (s.pulse.delayTicks.toNat * s.pulse.tickPrescale.toNat) ∧
    answers .getwidth (s.pulse.widthTicks.toNat * s.pulse.tickPrescale.toNat) ∧
    answers .getmode s.pulse.mode.toNat ∧
    answers .received (if s.serial.head ≠ s.serial.tail then 1 else 0)

/-- R129: MODE takes the operand byte as given; nothing else changes, also while BUSY = 1. -/
def Obligations.SetmodeStoresTheByte : Prop :=
  (∀ rest a, decode (0x17 :: a :: rest) = .ok (.setmode a) rest) ∧
  ∀ (mode : Byte) (s : State), exec (.setmode mode) s = .next { s with pulse := { s.pulse with mode := mode } }

/-- R137: what GETDELAY and GETWIDTH answer after SETMAN, on the three ranges of the delay operand; a consequence the spec marks as
derived (the width of the third range is R122 with R128; the coarse widths rest on D15, U17, A7). -/
def Obligations.ManualParametersRoundTrip : Prop :=
  ∀ (delay width : Word) (s : State), s.pulse.mode ≠ 0 → s.pulse.busy = false →
    ∃ t vd vw, execAll [.setman delay width, .getdelay, .getwidth] s = .next t ∧ t.seen.resp = s.seen.resp ++ [vd, vw] ∧
      (delay.toNat < 65536 → vd.toNat = max delay.toNat 5000 ∧ vw.toNat = max 4000 (min width.toNat 10000)) ∧
      (65536 ≤ delay.toNat → delay.toNat < 100000 →
        vd.toNat = 2 * (delay.toNat / 2) ∧ vw.toNat = 2 * max 2000 (min (width.toNat / 2) 5000)) ∧
      (100000 ≤ delay.toNat → vd.toNat = 99998 ∧ vw.toNat = 2 * max 2000 (min (width.toNat / 2) 5000))

/-- R131 and R132: the divider counts base edges and ticks when it reaches TICKPRESCALE; a tick counts up and clears the count where it
equals CMP, and the match follows, by PSTATE; a stopped divider changes nothing. All that a match writes:
MatchInDelayRaisesTheOutput, MatchInWidthEndsTheCycle. -/
def Obligations.BaseEdgeDividesAndTicks : Prop :=
  (∀ rest, decode (0x81 :: rest) = .ok .evBase rest) ∧
  ∀ s : State,
    (s.pulse.divrun = false → exec .evBase s = .next s) ∧
    (s.pulse.divrun = true → s.pulse.divcnt.toNat + 1 ≠ s.pulse.tickPrescale.toNat →
      exec .evBase s = .next { s with pulse := { s.pulse with divcnt := s.pulse.divcnt + 1 } }) ∧
    (s.pulse.divrun = true → s.pulse.divcnt.toNat + 1 = s.pulse.tickPrescale.toNat → s.pulse.tcnt + 1 ≠ s.pulse.cmp →
      exec .evBase s = .next { s with pulse := { s.pulse with divcnt := 0, tcnt := s.pulse.tcnt + 1 } }) ∧
    (s.pulse.divrun = true → s.pulse.divcnt.toNat + 1 = s.pulse.tickPrescale.toNat → s.pulse.tcnt + 1 = s.pulse.cmp →
      ∃ t, exec .evBase s = .next t ∧ t.pulse.divcnt = 0 ∧ t.pulse.tcnt = 0 ∧
        (s.pulse.pstate = .delay → t.pulse.pstate = .width) ∧ (s.pulse.pstate = .width → t.pulse.pstate = .complete))

/-- R133: the match in Delay begins the physical pulse; BUSY, the divider's running and the parameters stay, and all else but the log of
pins. DIVCNT = 0 and TCNT = 0 are the edge's and the tick's own writes (R131, R132); the log of pins is R105's, as A12 keeps it. -/
def Obligations.MatchInDelayRaisesTheOutput : Prop :=
  ∀ s : State, s.pulse.divrun = true → s.pulse.divcnt.toNat + 1 = s.pulse.tickPrescale.toNat → s.pulse.tcnt + 1 = s.pulse.cmp →
    s.pulse.pstate = .delay →
    ∃ t, exec .evBase s = .next t ∧
      t = { s with
            pulse := { s.pulse with divcnt := 0, tcnt := 0, pstate := .width, cmp := s.pulse.widthTicks, out := true }
            seen := { s.seen with pins := t.seen.pins } } ∧
      outLevel t.pins = .hi ∧
      (s.pulse.out = false → t.seen.pins = s.seen.pins ++ [t.pins])

/-- R134: the match in Width ends the physical pulse and completes the cycle, all in one step (DIVCNT = 0 and TCNT = 0: R131, R132; the
log of pins: R105, A12). -/
def Obligations.MatchInWidthEndsTheCycle : Prop :=
  ∀ s : State, s.pulse.divrun = true → s.pulse.divcnt.toNat + 1 = s.pulse.tickPrescale.toNat → s.pulse.tcnt + 1 = s.pulse.cmp →
    s.pulse.pstate = .width →
    ∃ t, exec .evBase s = .next t ∧
      t = { s with
            pulse := { s.pulse with divcnt := 0, tcnt := 0, out := false, divrun := false, busy := false, pstate := .complete }
            seen := { s.seen with pins := t.seen.pins } } ∧
      outLevel t.pins = .lo ∧
      (s.pulse.out = true → t.seen.pins = s.seen.pins ++ [t.pins])

/-- R138, a consequence the spec marks as derived: after an accepted arm, whatever else steps (anything but a parameter load and a
reset), OUT rises in the (P * D)-th base edge and falls, with BUSY, in the (P * (D + W))-th. A target of 0, which the reset parameters
give, is read as 65536 (U3, A7). -/
def Obligations.CycleLengthInBaseEdges : Prop :=
  ∀ (i : Instr) (s : State) (is : List Instr), i = .arm ∨ i = .evTrig → s.pulse.Inv → s.pulse.busy = false →
    (∀ j ∈ is, keepsParameters j = true) →
    let p := s.pulse.tickPrescale.toNat
    let d := targetTicks s.pulse.delayTicks
    let w := targetTicks s.pulse.widthTicks
    let n := is.count .evBase
    n ≤ p * (d + w) →
    (n < p * (d + w) ∨ is.getLast? = some .evBase) →
    ∃ t, execAll (i :: is) s = .next t ∧
      (n < p * d → t.pulse.pstate = .delay ∧ t.pulse.busy = true ∧ t.pulse.out = false) ∧
      (p * d ≤ n → n < p * (d + w) → t.pulse.pstate = .width ∧ t.pulse.busy = true ∧ t.pulse.out = true) ∧
      (n = p * (d + w) → t.pulse.pstate = .complete ∧ t.pulse.busy = false ∧ t.pulse.out = false)

/-- R139, a table the spec marks as derived: the only ways PSTATE and BUSY change. -/
def Obligations.PulseStateChangesOnlyAsTabled : Prop :=
  ∀ (i : Instr) (s t : State), exec i s = .next t →
    (t.pulse.pstate = s.pulse.pstate ∧ t.pulse.busy = s.pulse.busy) ∨
    ((i = .arm ∨ i = .evTrig) ∧ s.pulse.busy = false ∧ t.pulse.pstate = .delay ∧ t.pulse.busy = true) ∨
    (i = .evBase ∧ s.pulse.pstate = .delay ∧ t.pulse.pstate = .width ∧ t.pulse.busy = s.pulse.busy ∧ t.pulse.out = true) ∨
    (i = .evBase ∧ s.pulse.pstate = .width ∧ t.pulse.pstate = .complete ∧ t.pulse.busy = false ∧ t.pulse.out = false) ∨
    (i = .evReset ∧ t.pulse.pstate = .delay ∧ t.pulse.busy = false)

/-- R228 (i) and (ii): the order of a trigger and a base edge of the same instant can be observed; R228's own order, trigger first,
lets the edge count (as a tick, or on the coarse tick in the divider), and rejects the trigger of a completing cycle. -/
def Obligations.TriggerAndBaseEdgeOrderIsObservable : Prop :=
  ∀ s : State, s.pulse.Inv →
    coinciding [.evBase, .evTrig] = [.evTrig, .evBase] ∧
    (s.pulse.busy = false →
      (∃ t, execAll [.evTrig, .evBase] s = .next t ∧ t.pulse.busy = true ∧
        (s.pulse.tickPrescale = 1 → s.pulse.delayTicks ≠ 1 → t.pulse.tcnt = 1) ∧
        (s.pulse.tickPrescale = 2 → t.pulse.divcnt = 1 ∧ t.pulse.tcnt = 0)) ∧
      (∃ t, execAll [.evBase, .evTrig] s = .next t ∧ t.pulse.busy = true ∧ t.pulse.divcnt = 0 ∧ t.pulse.tcnt = 0)) ∧
    (s.pulse.pstate = .width → s.pulse.divcnt + 1 = s.pulse.tickPrescale → s.pulse.tcnt + 1 = s.pulse.cmp →
      (∃ t, execAll [.evTrig, .evBase] s = .next t ∧ t.pulse.busy = false ∧ t.pulse.pstate = .complete) ∧
      (∃ t, execAll [.evBase, .evTrig] s = .next t ∧ t.pulse.busy = true ∧ t.pulse.pstate = .delay ∧
        t.pulse.cmp = s.pulse.delayTicks))

/-! ## Display -/

/-- R164 and R165: PWRON sets DISP_ON only; PWROFF clears LIT and DISP_ON only, and no display line is driven. -/
def Obligations.PowerSwitchesTheDisplay : Prop :=
  (∀ rest, decode (0x20 :: rest) = .ok .pwron rest ∧ decode (0x21 :: rest) = .ok .pwroff rest) ∧
  ∀ s : State,
    (∃ t, exec .pwron s = .next t ∧
      t = { s with display := { s.display with dispOn := true }, seen := { s.seen with pins := t.seen.pins } } ∧
      (s.display.lit = false → ∀ i, digLevel t.pins i = .lo) ∧
      (∀ j : Fin 8, segLevel t.pins j = .ofBool (s.display.seglatch.getLsbD j.val))) ∧
    (∃ t, exec .pwroff s = .next t ∧
      t = { s with display := { s.display with lit := false, dispOn := false }, seen := { s.seen with pins := t.seen.pins } } ∧
      (∀ i, digLevel t.pins i = .z) ∧ (∀ j, segLevel t.pins j = .z))

/-- R161 with R166: below 100000 the five slots take the codes of the decimal digits (R160), slot 4 with the decimal point, one atomic
byte write each in ascending order: after the accepting step and k further sub-steps the slots 0 to k are written; nothing else changes.
From 100000 on nothing happens. (That the first write falls in the accepting step is the model's choice, A4.) -/
def Obligations.PlayWritesTheDigitCodes : Prop :=
  (∀ rest a, decode (0x22 :: (le32Bytes a ++ rest)) = .ok (.play a) rest) ∧
  ∀ (value : Word) (s : State),
    (100000 ≤ value.toNat → exec (.play value) s = .next s) ∧
    (value.toNat < 100000 →
      let code := fun i : Fin 5 =>
        if i = 4 then s.tables.segTable[value.toNat / 10 ^ i.val % 10]'(Nat.mod_lt _ (by decide)) ||| s.tables.dpMask
        else s.tables.segTable[value.toNat / 10 ^ i.val % 10]'(Nat.mod_lt _ (by decide))
      ∃ t, exec (.play value) s = .next t ∧
        (∀ k, k ≤ 4 → ∀ i : Fin 5, (subSteps k t).display.dbuf[i] = if i.val ≤ k then code i else s.display.dbuf[i]) ∧
        (∀ k, k < 4 → subReady (subSteps k t) = true) ∧
        subSteps 4 t =
          { s with display := { s.display with dbuf := Vector.ofFn code }, port := { s.port with pending := none } })

/-- R162 with R166: every slot takes the code as given, in ascending order, nothing else changes (first write: A4). -/
def Obligations.FillWritesEverySlot : Prop :=
  (∀ rest a, decode (0x23 :: a :: rest) = .ok (.fill a) rest) ∧
  ∀ (code : Byte) (s : State),
    ∃ t, exec (.fill code) s = .next t ∧
      (∀ k, k ≤ 4 → ∀ i : Fin 5, (subSteps k t).display.dbuf[i] = if i.val ≤ k then code else s.display.dbuf[i]) ∧
      (∀ k, k < 4 → subReady (subSteps k t) = true) ∧
      subSteps 4 t =
        { s with display := { s.display with dbuf := Vector.replicate 5 code }, port := { s.port with pending := none } }

/-- R163: the slot of the index takes the code and the other four keep theirs; an index above 4 selects none and nothing changes (the
no-op is decision D26 of the spec, U4). -/
def Obligations.FillatWritesOneSlot : Prop :=
  (∀ rest a b, decode (0x24 :: a :: b :: rest) = .ok (.fillat a b) rest) ∧
  ∀ (code index : Byte) (s : State),
    (4 < index.toNat → exec (.fillat code index) s = .next s) ∧
    (index.toNat ≤ 4 →
      ∃ t, exec (.fillat code index) s = .next t ∧
        (∀ i : Fin 5, t.display.dbuf[i] = if i.val = index.toNat then code else s.display.dbuf[i]) ∧
        t = { s with display := { s.display with dbuf := t.display.dbuf } })

/-- R167: the refresh is lost while the display is off; else the cursor advances modulo 5, the latch takes the byte of the slot there,
and that digit is lit; the buffer and all else but the log of pins stay. The log (R105, A12) shows the order of the four sub-steps as
R168 derives it: no digit with the old segments (where a digit was lit), no digit with the new segments (where they differ), the new
digit. -/
def Obligations.RefreshShowsTheNextSlot : Prop :=
  (∀ rest, decode (0x82 :: rest) = .ok .evRefresh rest) ∧
  ∀ s : State,
    (s.display.dispOn = false → exec .evRefresh s = .next s) ∧
    (s.display.dispOn = true →
      ∃ t, exec .evRefresh s = .next t ∧
        t.display.cursor.val = (s.display.cursor.val + 1) % 5 ∧
        t.display.seglatch = s.display.dbuf[t.display.cursor] ∧
        t.display.lit = true ∧
        t = { s with
              display := { s.display with cursor := t.display.cursor, seglatch := t.display.seglatch, lit := true }
              seen := { s.seen with pins := t.seen.pins } } ∧
        t.seen.pins =
          s.seen.pins ++
            (if s.display.lit then [⟨s.pulse.out, some (0, s.display.seglatch)⟩] else []) ++
            (if t.display.seglatch = s.display.seglatch then [] else [⟨s.pulse.out, some (0, t.display.seglatch)⟩]) ++
            [⟨s.pulse.out, some (BitVec.twoPow 5 t.display.cursor.val, t.display.seglatch)⟩])

/-- R169, marked as derived: five refreshes in a row light each slot once, in cyclic order, and bring the cursor back. -/
def Obligations.FiveRefreshesLightEverySlotOnce : Prop :=
  ∀ s : State, s.display.dispOn = true →
    ∃ f : Fin 5 → State,
      (∀ k : Fin 5, execAll (List.replicate (k.val + 1) .evRefresh) s = .next (f k) ∧
        (f k).display.cursor.val = (s.display.cursor.val + k.val + 1) % 5 ∧
        (f k).display.lit = true ∧ (f k).display.seglatch = s.display.dbuf[(f k).display.cursor]) ∧
      (∀ slot : Fin 5, ∃! k : Fin 5, (f k).display.cursor = slot) ∧
      (f 4).display.cursor = s.display.cursor

/-- R170, marked as derived: decoding the buffer after a completed PLAY gives the decimal digits back, with the decimal point on the top
slot and on no other, for every table R43 to R45 allow. -/
def Obligations.PlayDecodesBackToItsDigits : Prop :=
  ∀ (value : Word) (s : State), s.tables.Inv → value.toNat < 100000 →
    ∃ t, exec (.play value) s = .next t ∧
      ∀ i : Fin 5,
        (∃ k : Fin 10, decodeDigit s.tables (subSteps 4 t).display.dbuf[i] = some k ∧ k.val = value.toNat / 10 ^ i.val % 10) ∧
        ((subSteps 4 t).display.dbuf[i] &&& s.tables.dpMask ≠ 0 ↔ i = 4)

/-- R171, marked as derived: "The display does not depend on the pulse engine in any way", nor on the serial buffer: two machines with
the same display and tables have the same display after the same instruction (one of the serial buffer's leaves it as it is:
SubBlocksShareNothing). -/
def Obligations.DisplayDependsOnItselfAlone : Prop :=
  ∀ (i : Instr) (s₁ s₂ t₁ t₂ : State), s₁.display = s₂.display → s₁.tables = s₂.tables →
    exec i s₁ = .next t₁ → exec i s₂ = .next t₂ → s₁.port.pending = s₂.port.pending →
    blockOf i ≠ .serial → t₁.display = t₂.display ∧ t₁.tables = t₂.tables ∧ t₁.port.pending = t₂.port.pending

/-! ## Serial buffer -/

/-- R190: the byte goes to RING[TAIL] and TAIL advances with wraparound; HEAD and all else stay. -/
def Obligations.ReceptionStoresAtTail : Prop :=
  (∀ rest a, decode (0x83 :: a :: rest) = .ok (.evRx a) rest) ∧
  ∀ (b : Byte) (s : State), Memory.wf s.serial →
    ∃ t, exec (.evRx b) s = .next t ∧
      (∀ i, i < s.serial.ring.length → t.serial.ring[i]? = if i = s.serial.tail then some b else s.serial.ring[i]?) ∧
      t.serial.ring.length = s.serial.ring.length ∧
      t.serial.tail = (s.serial.tail + 1) % s.serial.ring.length ∧
      t = { s with serial := { s.serial with ring := t.serial.ring, tail := t.serial.tail } }

/-- R192: with a byte there, RDBYTE answers the byte at HEAD zero-extended and advances HEAD with wraparound; with none it is held: it
changes nothing, and no event but a reception lifts the hold. (That the read falls in the step that accepts the command: A4.) -/
def Obligations.ReadReturnsTheByteAtHeadOrHolds : Prop :=
  (∀ rest, decode (0x31 :: rest) = .ok .rdbyte rest) ∧
  ∀ s : State, Memory.wf s.serial →
    (s.serial.head ≠ s.serial.tail →
      ∃ b, s.serial.ring[s.serial.head]? = some b ∧
        exec .rdbyte s = .next
          { s with
            serial := { s.serial with head := (s.serial.head + 1) % s.serial.ring.length }
            seen := { s.seen with resp := s.seen.resp ++ [b.setWidth 32] }
            port := { s.port with pending := none } }) ∧
    (s.serial.head = s.serial.tail →
      exec .rdbyte s = .next { s with port := { s.port with pending := some .read } } ∧
      ∀ (i : Instr) (t : State), i.isEvent = true → (∀ b, i ≠ .evRx b) →
        exec i { s with port := { s.port with pending := some .read } } = .next t → subReady t = false)

/-- R192 with R190: a held RDBYTE completes with the first byte that arrives; its sub-step writes HEAD, the response and the command in
progress, and leaves everything else, the pulse engine and the display among it. -/
def Obligations.HeldReadCompletesOnReception : Prop :=
  ∀ (b : Byte) (s : State), Memory.wf s.serial → s.port.pending = some .read → s.serial.head = s.serial.tail →
    ∃ t, exec (.evRx b) s = .next t ∧ subReady t = true ∧
      runSub t =
        { t with
          serial := { t.serial with head := (t.serial.head + 1) % t.serial.ring.length }
          seen := { t.seen with resp := s.seen.resp ++ [b.setWidth 32] }
          port := { t.port with pending := none } } ∧
      (runSub t).serial.head = (runSub t).serial.tail

/-- R193: the first byte goes out at once if the transmitter is ready, else the command waits; an empty payload completes at once.
(The first sub-step in the accepting step: A4; the values of LF, CR and TERM: A11.) -/
def Obligations.WriteSendsOrHolds : Prop :=
  (∀ rest p, payloadOk p = true → decode (0x32 :: (p ++ 0x00 :: rest)) = .ok (.wrbytes p) rest) ∧
  ∀ (payload : List Byte) (s : State),
    (payload = [] → exec (.wrbytes payload) s = .next { s with port := { s.port with pending := none } }) ∧
    (∀ b rest, (payload.flatMap fun c => if c = 0x0A then [0x0D, 0x0A] else [c]) = b :: rest →
      (s.serial.txrdy = false →
        exec (.wrbytes payload) s = .next { s with port := { s.port with pending := some (.send (b :: rest)) } }) ∧
      (s.serial.txrdy = true →
        exec (.wrbytes payload) s = .next
          { s with
            serial := { s.serial with txrdy := false }
            seen := { s.seen with tx := s.seen.tx ++ [b] }
            port := { s.port with pending := if rest = [] then none else some (.send rest) } }))

/-- R193 whole: with the transmitter reporting ready before each sub-step, exactly the payload goes out, with a CR before every LF, and
the command completes; pulse engine, display and ring are untouched. (The values of LF and CR: A11, general knowledge; the first sub-step
in the accepting step: A4.) -/
def Obligations.WriteSendsThePayload : Prop :=
  ∀ (payload : List Byte) (s : State),
    ∃ t, exec (.wrbytes payload) s = .next t ∧
      let bytes := payload.flatMap fun c => if c = 0x0A then [0x0D, 0x0A] else [c]
      let u := readyRounds bytes.length t
      u.seen.tx = s.seen.tx ++ bytes ∧ u.port.pending = none ∧
      u.pulse = s.pulse ∧ u.display = s.display ∧ u.serial.ring = s.serial.ring ∧ u.serial.head = s.serial.head ∧
      u.serial.tail = s.serial.tail ∧ u.seen.resp = s.seen.resp

/-- R194: FLUSH resets both indices in one step and nothing else: the cells keep their bytes. -/
def Obligations.FlushResetsBothIndices : Prop :=
  (∀ rest, decode (0x33 :: rest) = .ok .flush rest) ∧
  ∀ s : State, exec .flush s = .next { s with serial := { s.serial with head := 0, tail := 0 } }

/-- R195: EV_TXRDY sets the ready level from its operand and nothing else. -/
def Obligations.TransmitReadyFollowsItsEvent : Prop :=
  (∀ rest a, decode (0x84 :: a :: rest) = .ok (.evTxrdy a) rest) ∧
  ∀ (level : Byte) (s : State),
    exec (.evTxrdy level) s = .next { s with serial := { s.serial with txrdy := decide (level.toNat ≠ 0) } }

/-- R199, marked as derived: the two orders of FLUSH and a reception. -/
def Obligations.FlushAgainstReception : Prop :=
  ∀ (b : Byte) (s : State), Memory.wf s.serial →
    (∃ t, execAll [.evRx b, .flush] s = .next t ∧ t.serial.head = 0 ∧ t.serial.tail = 0) ∧
    (∃ t, execAll [.flush, .evRx b] s = .next t ∧ t.serial.head = 0 ∧ t.serial.tail = 1 ∧ t.serial.ring[0]? = some b ∧
      received t.serial = true)

/-- R198 (i) to (iii), marked as derived: from an empty ring, k receptions without a read, then k mod N reads: they return, in order, the
last k mod N bytes received, and the ring reads as empty again (so after exactly N unread bytes it reads as empty at once). Each RDBYTE
reads in the step that accepts it (A4). -/
def Obligations.RingReturnsTheLastPartialLap : Prop :=
  ∀ (bs : List Byte) (s : State), Memory.wf s.serial → s.serial.head = s.serial.tail →
    let n := s.serial.ring.length
    let m := bs.length % n
    ∃ t u, execAll (bs.map .evRx) s = .next t ∧ received t.serial = decide (m ≠ 0) ∧
      execAll (List.replicate m .rdbyte) t = .next u ∧
      u.seen.resp = s.seen.resp ++ (bs.drop (bs.length - m)).map (fun b => b.setWidth 32) ∧
      received u.serial = false

/-- R42 (i), marked as derived: TAIL counts receptions modulo N, whatever else steps between them but FLUSH and reset. -/
def Obligations.TailCountsReceptions : Prop :=
  ∀ (is : List Instr) (s t : State), Memory.wf s.serial → (∀ i ∈ is, i ≠ .flush ∧ i ≠ .evReset) → execAll is s = .next t →
    t.serial.ring.length = s.serial.ring.length ∧
    t.serial.tail = (s.serial.tail + (is.filter fun i => match i with | .evRx _ => true | _ => false).length) % s.serial.ring.length

/-- R197: who may write HEAD, TAIL and RING; a held RDBYTE that completes writes HEAD alone. -/
def Obligations.RingIndicesHaveOneWriterEach : Prop :=
  (∀ s : State,
    (runSub s).serial.tail = s.serial.tail ∧ (runSub s).serial.ring = s.serial.ring ∧
    (s.port.pending ≠ some .read → (runSub s).serial.head = s.serial.head)) ∧
  ∀ (i : Instr) (s t : State), exec i s = .next t →
    (i ≠ .flush → i ≠ .evReset →
      (i ≠ .rdbyte → t.serial.head = s.serial.head) ∧
      ((∀ b, i ≠ .evRx b) → t.serial.tail = s.serial.tail ∧ t.serial.ring = s.serial.ring)) ∧
    (i = .received → t.serial = s.serial) ∧
    (i = .flush → t.serial.head = 0 ∧ t.serial.tail = 0 ∧ t.serial.ring = s.serial.ring)

/-! ## Reset -/

/-- R250 with the values of R52, and R251: every register takes its reset value, the ring keeps its size and the tables their contents, the
command in progress or partly received is dropped; what has been observed and what is still to come stay (A17). -/
def Obligations.ResetRestoresTheResetValues : Prop :=
  (∀ rest, decode (0x8F :: rest) = .ok .evReset rest) ∧
  ∀ s : State,
    ∃ t, exec .evReset s = .next t ∧
      t.pulse = ⟨0, 0, 1, 0, 0, 0, false, .delay, false, false, 0, 0⟩ ∧
      t.display = ⟨#v[0, 0, 0, 0, 0], 0, 0, false, false⟩ ∧
      t.serial.head = 0 ∧ t.serial.tail = 0 ∧ t.serial.txrdy = false ∧ t.serial.ring.length = s.serial.ring.length ∧
      t.port = ⟨[], none⟩ ∧ t.tables = s.tables ∧ t.stim = s.stim ∧ t.seen.resp = s.seen.resp ∧ t.seen.tx = s.seen.tx ∧
      outLevel t.pins = .lo ∧ (∀ i, digLevel t.pins i = .z) ∧ (∀ j, segLevel t.pins j = .z)

/-- R52, and R45 for the default segment codes: the state after reset. RING's contents, the open table entries and N are free values. -/
def Obligations.ResetStateHoldsTheSpecValues : Prop :=
  State.reset.pulse = ⟨0, 0, 1, 0, 0, 0, false, .delay, false, false, 0, 0⟩ ∧
  State.reset.display = ⟨#v[0, 0, 0, 0, 0], 0, 0, false, false⟩ ∧
  State.reset.serial.head = 0 ∧ State.reset.serial.tail = 0 ∧ State.reset.serial.txrdy = false ∧
  State.reset.port = ⟨[], none⟩ ∧
  outLevel State.reset.pins = .lo ∧ (∀ i, digLevel State.reset.pins i = .z) ∧ (∀ j, segLevel State.reset.pins j = .z)

/-- The state after reset meets the invariant. -/
def Obligations.ResetMeetsTheInvariant : Prop := State.reset.Inv

/-! ## The whole machine -/

/-- 10_state.md R31, R37, R42 and R43 to R45 with 41_display.md R168: from every state that meets them, every step keeps the invariants of
the pulse engine, the display, the ring, the tables, the port and the log of pin configurations. -/
def Obligations.EveryStepKeepsTheInvariant : Prop :=
  ∀ s t : State, s.Inv → step s = .next t → t.Inv

/-- 20_memory.md R63, R77: no step writes AUTOTABLE or SEGTABLE, reset included, and the ring never changes size. -/
def Obligations.NoStepWritesTheTables : Prop :=
  ∀ s t : State, step s = .next t → t.tables = s.tables ∧ t.serial.ring.length = s.serial.ring.length

/-- 60_exceptions.md R220, R221: the block raises no exception and reports no error: the one stop of an instruction is the case R126 leaves
without a next state, and no instruction is refused. -/
def Obligations.OnlyALoadWhileBusyStops : Prop :=
  ∀ (i : Instr) (s : State),
    (∀ r, exec i s ≠ .refused r) ∧
    (∀ r, exec i s = .fault r ↔
      s.pulse.busy = true ∧ (i = .setauto ∨ (∃ d w, i = .setman d w) ∧ s.pulse.mode ≠ 0))

/-- The three sub-blocks "share nothing but their host" (INDEX, 00_scope.md R1): an instruction of one leaves the registers of the other two. -/
def Obligations.SubBlocksShareNothing : Prop :=
  ∀ (i : Instr) (s t : State), exec i s = .next t →
    (blockOf i = .pulse → t.display = s.display ∧ t.serial = s.serial) ∧
    (blockOf i = .display → t.pulse = s.pulse ∧ t.serial = s.serial) ∧
    (blockOf i = .serial → t.pulse = s.pulse ∧ t.display = s.display)

/-- 30_encoding.md R105: but for the refresh, whose intermediate configurations are logged too, an instruction appends the new pin
configuration to the log exactly when it differs from the old one. -/
def Obligations.PinLogFollowsEveryChange : Prop :=
  ∀ (i : Instr) (s t : State), exec i s = .next t → i ≠ .evRefresh →
    t.seen.pins = s.seen.pins ++ (if t.pins = s.pins then [] else [t.pins])

/-- 30_encoding.md R95: the seven queries respond, nothing else does: an instruction that is no query adds no response; and only WRBYTES
(R193) hands bytes to the transmitter, one in its accepting step (A4) and one in each sub-step. A sub-step adds a response only for a held
RDBYTE, leaves the pulse engine, the tables and the log of pins as they are, and writes the display only for PLAY and FILL. -/
def Obligations.OnlyQueriesRespond : Prop :=
  (∀ (i : Instr) (s t : State), exec i s = .next t →
    (t.seen.resp = s.seen.resp ∨
      ((i = .getstate ∨ i = .getbusy ∨ i = .getdelay ∨ i = .getwidth ∨ i = .getmode ∨ i = .received ∨ i = .rdbyte) ∧
        ∃ v, t.seen.resp = s.seen.resp ++ [v])) ∧
    (t.seen.tx = s.seen.tx ∨ ∃ p b, i = .wrbytes p ∧ t.seen.tx = s.seen.tx ++ [b])) ∧
  ∀ s : State,
    ((runSub s).seen.resp = s.seen.resp ∨
      (s.port.pending = some .read ∧ ∃ v, (runSub s).seen.resp = s.seen.resp ++ [v])) ∧
    ((runSub s).seen.tx = s.seen.tx ∨
      ∃ b bs, s.port.pending = some (.send (b :: bs)) ∧ (runSub s).seen.tx = s.seen.tx ++ [b]) ∧
    (runSub s).pulse = s.pulse ∧ (runSub s).tables = s.tables ∧ (runSub s).seen.pins = s.seen.pins ∧
    ((∀ ws, s.port.pending ≠ some (.stores ws)) → (runSub s).display = s.display)
end

