-- ==== Sys2Proof/Laws/Decode.lean ====
section
/-! SUPPORT. What each piece of the decoder and the encoder does, said once (30_encoding.md R91, R92, R94, R96, R106,
R107). -/

namespace Sys2Proof

/-- R92: the four bytes of a value, read little-endian, are the value. -/
@[simp] theorem le32_byteOf (w : Word) : le32 (byteOf 0 w) (byteOf 1 w) (byteOf 2 w) (byteOf 3 w) = w := by
  apply BitVec.eq_of_toNat_eq
  have := w.isLt
  simp only [le32, byteOf, BitVec.toNat_ofNat]
  omega

theorem byteOf_zero_le32 (a b c d : Byte) : byteOf 0 (le32 a b c d) = a := by
  have := a.isLt; have := b.isLt; have := c.isLt; have := d.isLt
  apply BitVec.eq_of_toNat_eq; simp only [byteOf, le32, BitVec.toNat_ofNat]; omega

theorem byteOf_one_le32 (a b c d : Byte) : byteOf 1 (le32 a b c d) = b := by
  have := a.isLt; have := b.isLt; have := c.isLt; have := d.isLt
  apply BitVec.eq_of_toNat_eq; simp only [byteOf, le32, BitVec.toNat_ofNat]; omega

theorem byteOf_two_le32 (a b c d : Byte) : byteOf 2 (le32 a b c d) = c := by
  have := a.isLt; have := b.isLt; have := c.isLt; have := d.isLt
  apply BitVec.eq_of_toNat_eq; simp only [byteOf, le32, BitVec.toNat_ofNat]; omega

theorem byteOf_three_le32 (a b c d : Byte) : byteOf 3 (le32 a b c d) = d := by
  have := a.isLt; have := b.isLt; have := c.isLt; have := d.isLt
  apply BitVec.eq_of_toNat_eq; simp only [byteOf, le32, BitVec.toNat_ofNat]; omega

/-- Four bytes read as a value are the bytes of that value: no bit of an operand is dropped. -/
@[simp] theorem le32Bytes_le32 (a b c d : Byte) : le32Bytes (le32 a b c d) = [a, b, c, d] := by
  simp only [le32Bytes, byteOf_zero_le32, byteOf_one_le32, byteOf_two_le32, byteOf_three_le32]

@[simp] theorem le32Bytes_length (w : Word) : (le32Bytes w).length = 4 := rfl

/-- R106: a payload without TERM, then TERM, splits there. -/
theorem splitTerm_payload {p : List Byte} (rest : List Byte) (h : payloadOk p = true) :
    splitTerm (p ++ Config.term :: rest) = some (p, rest) := by
  induction p with
  | nil => simp [splitTerm]
  | cons b p ih =>
    simp only [payloadOk, List.all_cons, Bool.and_eq_true, decide_eq_true_eq] at h ih
    simp [splitTerm, h.1, ih h.2]

/-- Everything a successful split says: the payload has no TERM, and the bytes are payload, TERM, rest. -/
theorem splitTerm_eq_some {bs p rest : List Byte} (h : splitTerm bs = some (p, rest)) :
    payloadOk p = true ∧ bs = p ++ Config.term :: rest := by
  induction bs generalizing p with
  | nil => cases h
  | cons b bs ih =>
    simp only [splitTerm] at h
    split at h
    · cases h
      exact ⟨rfl, by simp [*]⟩
    · rename_i hb
      cases hs : splitTerm bs with
      | none => simp [hs] at h
      | some pr =>
        simp only [hs, Option.map_some, Option.some.injEq, Prod.mk.injEq] at h
        obtain ⟨rfl, rfl⟩ := h
        obtain ⟨hp, rfl⟩ := ih hs
        exact ⟨by simpa [payloadOk, hb] using hp, rfl⟩

/-! ### The operand formats, inverted -/

theorem decodeB_ok {f : Byte → Instr} {bs rest : List Byte} {i : Instr} (h : decodeB f bs = .ok i rest) :
    ∃ a, i = f a ∧ bs = a :: rest := by
  unfold decodeB at h
  split at h <;> cases h
  exact ⟨_, rfl, rfl⟩

theorem decodeBB_ok {f : Byte → Byte → Instr} {bs rest : List Byte} {i : Instr} (h : decodeBB f bs = .ok i rest) :
    ∃ a b, i = f a b ∧ bs = a :: b :: rest := by
  unfold decodeBB at h
  split at h <;> cases h
  exact ⟨_, _, rfl, rfl⟩

theorem decodeW_ok {f : Word → Instr} {bs rest : List Byte} {i : Instr} (h : decodeW f bs = .ok i rest) :
    ∃ a, i = f a ∧ bs = le32Bytes a ++ rest := by
  unfold decodeW at h
  split at h <;> cases h
  exact ⟨_, rfl, by rw [le32Bytes_le32]; rfl⟩

theorem decodeWW_ok {f : Word → Word → Instr} {bs rest : List Byte} {i : Instr} (h : decodeWW f bs = .ok i rest) :
    ∃ a b, i = f a b ∧ bs = le32Bytes a ++ (le32Bytes b ++ rest) := by
  unfold decodeWW at h
  split at h <;> cases h
  exact ⟨_, _, rfl, by rw [le32Bytes_le32, le32Bytes_le32]; rfl⟩

theorem decodeS_ok {f : List Byte → Instr} {bs rest : List Byte} {i : Instr} (h : decodeS f bs = .ok i rest) :
    ∃ p, i = f p ∧ payloadOk p = true ∧ bs = p ++ Config.term :: rest := by
  unfold decodeS at h
  split at h
  · rename_i hs
    cases h
    obtain ⟨hp, e⟩ := splitTerm_eq_some hs
    exact ⟨_, rfl, hp, e⟩
  · cases h

/-- A reserved item is the one byte it was read from (R96). -/
theorem decodeCode_reserved {code c : Byte} {bs : List Byte} (h : decodeCode code bs = .reserved c) : c = code := by
  simp only [decodeCode, decodeCommandCode, decodeB, decodeBB, decodeW, decodeWW, decodeS] at h
  repeat' split at h
  all_goals first | (cases h; rfl) | cases h

/-- A code that stands for nothing is reserved in a trace (R96, R103). -/
theorem decode_of_unassigned {code : Byte} (bs : List Byte) (h : Machine.assignedCode code = false) :
    decode (code :: bs) = .reserved code := by
  simp only [Machine.assignedCode, Bool.or_eq_false_iff, Bool.and_eq_false_iff, decide_eq_false_iff_not] at h
  simp only [decode, decodeCode, decodeCommandCode]
  split
  case h_7 =>
    split
    case h_19 => rfl
    all_goals (exfalso; rename_i hc; simp [hc] at h)
  all_goals (exfalso; rename_i hc; simp [hc] at h)

/-- On the command port the event codes are reserved as well (R96). -/
theorem decodePort_of_reserved {code : Byte} (bs : List Byte) (h : Machine.assignedCode code = false ∨ 0x80 ≤ code.toNat) :
    decodePort (code :: bs) = .reserved code := by
  simp only [Machine.assignedCode, Bool.or_eq_false_iff, Bool.and_eq_false_iff, decide_eq_false_iff_not] at h
  simp only [decodePort, decodeCommandCode]
  split
  case h_19 => rfl
  all_goals (exfalso; rename_i hc; simp [hc] at h)

/-- What follows the first item of a legal split is a legal split (R107). -/
theorem legalSplit_tail {it : Item} {items : List Item} (h : Machine.LegalSplit (it :: items)) : Machine.LegalSplit items := by
  refine ⟨fun x hx => h.1 x (List.mem_cons_of_mem it hx), fun k r hk => ?_⟩
  have := h.2 (k + 1) r (by simpa using hk)
  simpa using this

/-- Every encoding has at least its opcode byte. -/
theorem encode_ne_nil (i : Instr) : encode i ≠ [] := by
  cases i <;> simp [encode]

end Sys2Proof
end

