-- ==== Sys2Proof/Laws/State.lean ====
section
/-! SUPPORT. One lemma per field per update of the state, each true by rfl. -/

namespace Sys2Proof.Machine.State

@[simp] theorem withPulse_pulse (s : State) (p : Pulse) : (s.withPulse p).pulse = p := rfl
@[simp] theorem withPulse_display (s : State) (p : Pulse) : (s.withPulse p).display = s.display := rfl
@[simp] theorem withPulse_serial (s : State) (p : Pulse) : (s.withPulse p).serial = s.serial := rfl
@[simp] theorem withPulse_tables (s : State) (p : Pulse) : (s.withPulse p).tables = s.tables := rfl
@[simp] theorem withPulse_port (s : State) (p : Pulse) : (s.withPulse p).port = s.port := rfl
@[simp] theorem withPulse_stim (s : State) (p : Pulse) : (s.withPulse p).stim = s.stim := rfl
@[simp] theorem withPulse_seen (s : State) (p : Pulse) : (s.withPulse p).seen = s.seen := rfl
@[simp] theorem withPulse_free (s : State) (p : Pulse) : (s.withPulse p).free = s.free := rfl

@[simp] theorem withDisplay_pulse (s : State) (d : Display) : (s.withDisplay d).pulse = s.pulse := rfl
@[simp] theorem withDisplay_display (s : State) (d : Display) : (s.withDisplay d).display = d := rfl
@[simp] theorem withDisplay_serial (s : State) (d : Display) : (s.withDisplay d).serial = s.serial := rfl
@[simp] theorem withDisplay_tables (s : State) (d : Display) : (s.withDisplay d).tables = s.tables := rfl
@[simp] theorem withDisplay_port (s : State) (d : Display) : (s.withDisplay d).port = s.port := rfl
@[simp] theorem withDisplay_stim (s : State) (d : Display) : (s.withDisplay d).stim = s.stim := rfl
@[simp] theorem withDisplay_seen (s : State) (d : Display) : (s.withDisplay d).seen = s.seen := rfl
@[simp] theorem withDisplay_free (s : State) (d : Display) : (s.withDisplay d).free = s.free := rfl

@[simp] theorem withSerial_pulse (s : State) (r : Serial) : (s.withSerial r).pulse = s.pulse := rfl
@[simp] theorem withSerial_display (s : State) (r : Serial) : (s.withSerial r).display = s.display := rfl
@[simp] theorem withSerial_serial (s : State) (r : Serial) : (s.withSerial r).serial = r := rfl
@[simp] theorem withSerial_tables (s : State) (r : Serial) : (s.withSerial r).tables = s.tables := rfl
@[simp] theorem withSerial_port (s : State) (r : Serial) : (s.withSerial r).port = s.port := rfl
@[simp] theorem withSerial_stim (s : State) (r : Serial) : (s.withSerial r).stim = s.stim := rfl
@[simp] theorem withSerial_seen (s : State) (r : Serial) : (s.withSerial r).seen = s.seen := rfl
@[simp] theorem withSerial_free (s : State) (r : Serial) : (s.withSerial r).free = s.free := rfl

@[simp] theorem withPort_pulse (s : State) (q : Port) : (s.withPort q).pulse = s.pulse := rfl
@[simp] theorem withPort_display (s : State) (q : Port) : (s.withPort q).display = s.display := rfl
@[simp] theorem withPort_serial (s : State) (q : Port) : (s.withPort q).serial = s.serial := rfl
@[simp] theorem withPort_tables (s : State) (q : Port) : (s.withPort q).tables = s.tables := rfl
@[simp] theorem withPort_port (s : State) (q : Port) : (s.withPort q).port = q := rfl
@[simp] theorem withPort_stim (s : State) (q : Port) : (s.withPort q).stim = s.stim := rfl
@[simp] theorem withPort_seen (s : State) (q : Port) : (s.withPort q).seen = s.seen := rfl
@[simp] theorem withPort_free (s : State) (q : Port) : (s.withPort q).free = s.free := rfl

@[simp] theorem withStim_pulse (s : State) (m : Stimulus) : (s.withStim m).pulse = s.pulse := rfl
@[simp] theorem withStim_display (s : State) (m : Stimulus) : (s.withStim m).display = s.display := rfl
@[simp] theorem withStim_serial (s : State) (m : Stimulus) : (s.withStim m).serial = s.serial := rfl
@[simp] theorem withStim_tables (s : State) (m : Stimulus) : (s.withStim m).tables = s.tables := rfl
@[simp] theorem withStim_port (s : State) (m : Stimulus) : (s.withStim m).port = s.port := rfl
@[simp] theorem withStim_stim (s : State) (m : Stimulus) : (s.withStim m).stim = m := rfl
@[simp] theorem withStim_seen (s : State) (m : Stimulus) : (s.withStim m).seen = s.seen := rfl
@[simp] theorem withStim_free (s : State) (m : Stimulus) : (s.withStim m).free = s.free := rfl

@[simp] theorem withSeen_pulse (s : State) (o : Observed) : (s.withSeen o).pulse = s.pulse := rfl
@[simp] theorem withSeen_display (s : State) (o : Observed) : (s.withSeen o).display = s.display := rfl
@[simp] theorem withSeen_serial (s : State) (o : Observed) : (s.withSeen o).serial = s.serial := rfl
@[simp] theorem withSeen_tables (s : State) (o : Observed) : (s.withSeen o).tables = s.tables := rfl
@[simp] theorem withSeen_port (s : State) (o : Observed) : (s.withSeen o).port = s.port := rfl
@[simp] theorem withSeen_stim (s : State) (o : Observed) : (s.withSeen o).stim = s.stim := rfl
@[simp] theorem withSeen_seen (s : State) (o : Observed) : (s.withSeen o).seen = o := rfl
@[simp] theorem withSeen_free (s : State) (o : Observed) : (s.withSeen o).free = s.free := rfl

@[simp] theorem setPending_pulse (s : State) (c : Option Pending) : (s.setPending c).pulse = s.pulse := rfl
@[simp] theorem setPending_display (s : State) (c : Option Pending) : (s.setPending c).display = s.display := rfl
@[simp] theorem setPending_serial (s : State) (c : Option Pending) : (s.setPending c).serial = s.serial := rfl
@[simp] theorem setPending_tables (s : State) (c : Option Pending) : (s.setPending c).tables = s.tables := rfl
@[simp] theorem setPending_port (s : State) (c : Option Pending) : (s.setPending c).port = { s.port with pending := c } := rfl
@[simp] theorem setPending_stim (s : State) (c : Option Pending) : (s.setPending c).stim = s.stim := rfl
@[simp] theorem setPending_seen (s : State) (c : Option Pending) : (s.setPending c).seen = s.seen := rfl
@[simp] theorem setPending_free (s : State) (c : Option Pending) : (s.setPending c).free = s.free := rfl

@[simp] theorem respond_pulse (s : State) (v : Word) : (s.respond v).pulse = s.pulse := rfl
@[simp] theorem respond_display (s : State) (v : Word) : (s.respond v).display = s.display := rfl
@[simp] theorem respond_serial (s : State) (v : Word) : (s.respond v).serial = s.serial := rfl
@[simp] theorem respond_tables (s : State) (v : Word) : (s.respond v).tables = s.tables := rfl
@[simp] theorem respond_port (s : State) (v : Word) : (s.respond v).port = s.port := rfl
@[simp] theorem respond_stim (s : State) (v : Word) : (s.respond v).stim = s.stim := rfl
@[simp] theorem respond_seen (s : State) (v : Word) : (s.respond v).seen = { s.seen with resp := s.seen.resp ++ [v] } := rfl
@[simp] theorem respond_free (s : State) (v : Word) : (s.respond v).free = s.free := rfl

@[simp] theorem emit_pulse (s : State) (b : Byte) : (s.emit b).pulse = s.pulse := rfl
@[simp] theorem emit_display (s : State) (b : Byte) : (s.emit b).display = s.display := rfl
@[simp] theorem emit_serial (s : State) (b : Byte) : (s.emit b).serial = s.serial := rfl
@[simp] theorem emit_tables (s : State) (b : Byte) : (s.emit b).tables = s.tables := rfl
@[simp] theorem emit_port (s : State) (b : Byte) : (s.emit b).port = s.port := rfl
@[simp] theorem emit_stim (s : State) (b : Byte) : (s.emit b).stim = s.stim := rfl
@[simp] theorem emit_seen (s : State) (b : Byte) : (s.emit b).seen = { s.seen with tx := s.seen.tx ++ [b] } := rfl
@[simp] theorem emit_free (s : State) (b : Byte) : (s.emit b).free = s.free := rfl

@[simp] theorem drive_pulse (s : State) (p : Pulse) (d : Display) : (s.drive p d).pulse = p := rfl
@[simp] theorem drive_display (s : State) (p : Pulse) (d : Display) : (s.drive p d).display = d := rfl
@[simp] theorem drive_serial (s : State) (p : Pulse) (d : Display) : (s.drive p d).serial = s.serial := rfl
@[simp] theorem drive_tables (s : State) (p : Pulse) (d : Display) : (s.drive p d).tables = s.tables := rfl
@[simp] theorem drive_port (s : State) (p : Pulse) (d : Display) : (s.drive p d).port = s.port := rfl
@[simp] theorem drive_stim (s : State) (p : Pulse) (d : Display) : (s.drive p d).stim = s.stim := rfl
@[simp] theorem drive_free (s : State) (p : Pulse) (d : Display) : (s.drive p d).free = s.free := rfl

theorem drive_seen (s : State) (p : Pulse) (d : Display) :
    (s.drive p d).seen =
      if pinsOf p d = s.pins then s.seen else { s.seen with pins := s.seen.pins ++ [pinsOf p d] } := rfl

@[simp] theorem withTrace_pulse (s : State) (bs : List Byte) : (s.withTrace bs).pulse = s.pulse := rfl
@[simp] theorem withTrace_display (s : State) (bs : List Byte) : (s.withTrace bs).display = s.display := rfl
@[simp] theorem withTrace_serial (s : State) (bs : List Byte) : (s.withTrace bs).serial = s.serial := rfl
@[simp] theorem withTrace_tables (s : State) (bs : List Byte) : (s.withTrace bs).tables = s.tables := rfl
@[simp] theorem withTrace_port (s : State) (bs : List Byte) : (s.withTrace bs).port = s.port := rfl
@[simp] theorem withTrace_stim (s : State) (bs : List Byte) : (s.withTrace bs).stim = { s.stim with trace := bs } := rfl
@[simp] theorem withTrace_seen (s : State) (bs : List Byte) : (s.withTrace bs).seen = s.seen := rfl
@[simp] theorem withTrace_free (s : State) (bs : List Byte) : (s.withTrace bs).free = s.free := rfl

@[simp] theorem withTurns_pulse (s : State) (ts : List Turn) : (s.withTurns ts).pulse = s.pulse := rfl
@[simp] theorem withTurns_display (s : State) (ts : List Turn) : (s.withTurns ts).display = s.display := rfl
@[simp] theorem withTurns_serial (s : State) (ts : List Turn) : (s.withTurns ts).serial = s.serial := rfl
@[simp] theorem withTurns_tables (s : State) (ts : List Turn) : (s.withTurns ts).tables = s.tables := rfl
@[simp] theorem withTurns_port (s : State) (ts : List Turn) : (s.withTurns ts).port = s.port := rfl
@[simp] theorem withTurns_stim (s : State) (ts : List Turn) : (s.withTurns ts).stim = { s.stim with turns := ts } := rfl
@[simp] theorem withTurns_seen (s : State) (ts : List Turn) : (s.withTurns ts).seen = s.seen := rfl
@[simp] theorem withTurns_free (s : State) (ts : List Turn) : (s.withTurns ts).free = s.free := rfl

end Sys2Proof.Machine.State
end

