-- ==== Sys2Proof/Laws/Ops.lean ====
section
/-! SUPPORT. What each shared operation can do, said once: the pin log, the array accesses and their form, the sub-steps, the pulse
engine's transitions. -/

namespace Sys2Proof.Machine

/-! ### Pins and their log -/

@[simp] theorem State.pins_eq (s : State) : s.pins = pinsOf s.pulse s.display := rfl

@[simp] theorem State.drive_resp (s : State) (p : Pulse) (d : Display) : (s.drive p d).seen.resp = s.seen.resp := by
  simp only [State.drive_seen]; split <;> rfl

@[simp] theorem State.drive_tx (s : State) (p : Pulse) (d : Display) : (s.drive p d).seen.tx = s.seen.tx := by
  simp only [State.drive_seen]; split <;> rfl

/-- Driving the pins appends the new configuration exactly when it differs. -/
theorem State.drive_pins (s : State) (p : Pulse) (d : Display) :
    (s.drive p d).seen.pins = s.seen.pins ++ (if pinsOf p d = s.pins then [] else [pinsOf p d]) := by
  simp only [State.drive_seen]; split <;> simp

/-- Registers that leave the pins as they are, written through `drive`, leave the log as it is. -/
theorem State.drive_of_same_pins (s : State) (p : Pulse) (d : Display) (h : pinsOf p d = s.pins) :
    s.drive p d = { s with pulse := p, display := d } := by
  simp only [State.drive, if_pos h]

theorem pinsOf_eq_of_out {p q : Pulse} (d : Display) (h : p.out = q.out) : pinsOf p d = pinsOf q d := by
  simp only [pinsOf, h]

/-! ### Arrays -/

@[simp] theorem ringSize_ringPush (r : Serial) (b : Byte) : ringSize (ringPush r b) = ringSize r := by
  simp [ringPush, ringWrite, ringSize]

@[simp] theorem ringSize_ringPop (r : Serial) : ringSize (ringPop r) = ringSize r := rfl

@[simp] theorem freshRing_length (e n : Nat) : (Config.freshRing e n).length = n := by simp [Config.freshRing]

@[simp] theorem ringSize_reset (e n : Nat) : ringSize (Serial.reset e n) = n := freshRing_length e n

theorem ringCap_bounds : 2 ≤ Config.ringCap ∧ Config.ringCap ≤ 256 := by
  have := Config.ringCapAbove2.isLt
  simp only [Config.ringCap]; omega

theorem nextIndex_lt {r : Serial} (h : Memory.wf r) (i : Nat) : nextIndex r i < ringSize r :=
  Nat.mod_lt _ (by have := h.1; omega)

theorem ringPush_wf {r : Serial} (h : Memory.wf r) (b : Byte) : Memory.wf (ringPush r b) := by
  refine ⟨?_, ?_, ?_, ?_⟩ <;> rw [ringSize_ringPush]
  · exact h.1
  · exact h.2.1
  · exact h.2.2.1
  · exact nextIndex_lt h r.tail

theorem ringWrite_wf {r : Serial} (h : Memory.wf r) (i : Nat) (b : Byte) : Memory.wf (ringWrite r i b) := by
  simp only [Memory.wf, ringWrite, ringSize, List.length_set]
  exact h

theorem ringPop_wf {r : Serial} (h : Memory.wf r) : Memory.wf (ringPop r) :=
  ⟨h.1, h.2.1, nextIndex_lt h r.head, h.2.2.2⟩

theorem flush_wf {r : Serial} (h : Memory.wf r) : Memory.wf { r with head := 0, tail := 0 } := by
  obtain ⟨h2, h256, -, -⟩ := h
  exact ⟨h2, h256, Nat.lt_of_lt_of_le Nat.zero_lt_two h2, Nat.lt_of_lt_of_le Nat.zero_lt_two h2⟩

theorem txrdy_wf {r : Serial} (h : Memory.wf r) (l : Bool) : Memory.wf { r with txrdy := l } := h

theorem serialReset_wf {n : Nat} (h2 : 2 ≤ n) (h256 : n ≤ 256) (e : Nat) : Memory.wf (Serial.reset e n) := by
  refine ⟨?_, ?_, ?_, ?_⟩ <;> rw [ringSize_reset]
  · exact h2
  · exact h256
  · exact Nat.lt_of_lt_of_le (by decide : (0 : Nat) < 2) h2
  · exact Nat.lt_of_lt_of_le (by decide : (0 : Nat) < 2) h2

/-- The arrays of the state after reset have their form. -/
theorem reset_memory_wf : Memory.wf State.reset.serial := serialReset_wf ringCap_bounds.1 ringCap_bounds.2 0

theorem ringRead_of_lt {r : Serial} {i : Nat} (h : i < ringSize r) : ringRead r i = r.ring[i]'h := by
  simp only [ringSize] at h
  simp [ringRead, List.getD, h]

/-- The byte a reception stores is the one a read at that index gives. -/
theorem ringRead_ringPush_tail {r : Serial} (h : r.tail < ringSize r) (b : Byte) : ringRead (ringPush r b) r.tail = b := by
  rw [ringRead_of_lt (by rwa [ringSize_ringPush])]
  simp [ringPush, ringWrite]

/-- A reception leaves every other cell alone. -/
theorem ringRead_ringPush_ne {r : Serial} {i : Nat} (h : i ≠ r.tail) (b : Byte) : ringRead (ringPush r b) i = ringRead r i := by
  simp [ringRead, ringPush, ringWrite, List.getD, List.getElem?_set_ne (Ne.symm h)]

@[simp] theorem dbufRead_dbufWrite_self (d : Display) (i : Fin 5) (c : Byte) : dbufRead (dbufWrite d i c) i = c := by
  simp [dbufRead, dbufWrite]

theorem dbufRead_dbufWrite_ne (d : Display) {i j : Fin 5} (h : j ≠ i) (c : Byte) : dbufRead (dbufWrite d i c) j = dbufRead d j := by
  have : i.val ≠ j.val := fun e => h (Fin.ext e.symm)
  simp [dbufRead, dbufWrite, Vector.getElem_set_ne, this]

/-! ### Sub-steps -/

/-- Everything a sub-step can do: nothing; finish; one byte write; one read; one byte sent. -/
theorem runSub_cases (s : State) :
    runSub s = s ∨ runSub s = s.setPending none ∨
    (∃ i c ws, s.port.pending = some (.stores ((i, c) :: ws)) ∧
      runSub s = (s.withDisplay (dbufWrite s.display i c)).setPending (remaining .stores ws)) ∨
    (s.port.pending = some .read ∧ received s.serial = true ∧
      runSub s =
        ((s.respond ((ringRead s.serial s.serial.head).setWidth 32)).withSerial (ringPop s.serial)).setPending none) ∨
    (∃ b bs, s.port.pending = some (.send (b :: bs)) ∧ s.serial.txrdy = true ∧
      runSub s = ((s.emit b).withSerial { s.serial with txrdy := false }).setPending (remaining .send bs)) := by
  unfold runSub
  split
  · exact .inl rfl
  · exact .inr (.inl rfl)
  · exact .inr (.inr (.inl ⟨_, _, _, ‹_›, rfl⟩))
  · split
    · exact .inr (.inr (.inr (.inl ⟨‹_›, ‹_›, rfl⟩)))
    · exact .inl rfl
  · exact .inr (.inl rfl)
  · split
    · exact .inr (.inr (.inr (.inr ⟨_, _, ‹_›, ‹_›, rfl⟩)))
    · exact .inl rfl

@[simp] theorem runSub_pulse (s : State) : (runSub s).pulse = s.pulse := by
  rcases runSub_cases s with h | h | ⟨_, _, _, _, h⟩ | ⟨_, _, h⟩ | ⟨_, _, _, _, h⟩ <;> rw [h] <;> rfl

@[simp] theorem runSub_tables (s : State) : (runSub s).tables = s.tables := by
  rcases runSub_cases s with h | h | ⟨_, _, _, _, h⟩ | ⟨_, _, h⟩ | ⟨_, _, _, _, h⟩ <;> rw [h] <;> rfl

@[simp] theorem runSub_stim (s : State) : (runSub s).stim = s.stim := by
  rcases runSub_cases s with h | h | ⟨_, _, _, _, h⟩ | ⟨_, _, h⟩ | ⟨_, _, _, _, h⟩ <;> rw [h] <;> rfl

@[simp] theorem runSub_accepted (s : State) : (runSub s).port.accepted = s.port.accepted := by
  rcases runSub_cases s with h | h | ⟨_, _, _, _, h⟩ | ⟨_, _, h⟩ | ⟨_, _, _, _, h⟩ <;> rw [h] <;> rfl

@[simp] theorem runSub_pinLog (s : State) : (runSub s).seen.pins = s.seen.pins := by
  rcases runSub_cases s with h | h | ⟨_, _, _, _, h⟩ | ⟨_, _, h⟩ | ⟨_, _, _, _, h⟩ <;> rw [h] <;> rfl

/-- A sub-step changes no pin: of the display it writes DBUF only. -/
theorem runSub_display (s : State) : ∃ buf, (runSub s).display = { s.display with dbuf := buf } := by
  rcases runSub_cases s with h | h | ⟨_, _, _, _, h⟩ | ⟨_, _, h⟩ | ⟨_, _, _, _, h⟩ <;> rw [h] <;> exact ⟨_, rfl⟩

@[simp] theorem runSub_pinsOf (s : State) (p : Pulse) : pinsOf p (runSub s).display = pinsOf p s.display := by
  obtain ⟨buf, h⟩ := runSub_display s
  simp [h, pinsOf, digLines]

@[simp] theorem runSub_ringSize (s : State) : ringSize (runSub s).serial = ringSize s.serial := by
  rcases runSub_cases s with h | h | ⟨_, _, _, _, h⟩ | ⟨_, _, h⟩ | ⟨_, _, _, _, h⟩ <;> rw [h] <;> rfl

/-- Sub-steps keep the form of the arrays. -/
theorem runSub_wf {s : State} (h : Memory.wf s.serial) : Memory.wf (runSub s).serial := by
  rcases runSub_cases s with e | e | ⟨_, _, _, _, e⟩ | ⟨_, _, e⟩ | ⟨_, _, _, _, e⟩ <;> rw [e]
  · exact h
  · exact h
  · exact h
  · exact ringPop_wf h
  · exact h

theorem remaining_live {α : Type} {f : List α → Pending} (hf : ∀ a l, (f (a :: l)).live = true) (l : List α) :
    ∀ c ∈ remaining f l, c.live = true := by
  cases l with
  | nil => intro c hc; cases hc
  | cons a l => intro c hc; cases hc; exact hf a l

/-- A command in progress keeps having something left to do. -/
theorem runSub_live {s : State} (h : ∀ c ∈ s.port.pending, c.live = true) : ∀ c ∈ (runSub s).port.pending, c.live = true := by
  rcases runSub_cases s with e | e | ⟨_, _, _, _, e⟩ | ⟨_, _, e⟩ | ⟨_, _, _, _, e⟩ <;> rw [e]
  · exact h
  · intro c hc; cases hc
  · exact remaining_live (fun _ _ => rfl) _
  · intro c hc; cases hc
  · exact remaining_live (fun _ _ => rfl) _

/-! ### The pulse engine -/

/-- The two outcomes of an arm. -/
theorem arm_of_busy {s : State} (h : s.pulse.busy = true) : arm s = s := by simp [arm, h]

theorem arm_of_idle {s : State} (h : s.pulse.busy = false) :
    arm s = s.withPulse
      { s.pulse with
        divcnt := 0, tcnt := 0, divrun := true, pstate := .delay, busy := true, cmp := s.pulse.delayTicks } := by
  simp [arm, h]

theorem clamp_eq (v lo hi : Nat) (h : lo ≤ hi) : clamp v lo hi = max lo (min v hi) := by
  unfold clamp; split
  · omega
  · split <;> omega

theorem clamp_bounds (v lo hi : Nat) (h : lo ≤ hi) : lo ≤ clamp v lo hi ∧ clamp v lo hi ≤ hi := by
  rw [clamp_eq v lo hi h]; omega

/-- R136 (ii): halving and clamping commute. -/
theorem clamp_half (w : Nat) : clamp (w / 2) 2000 5000 = clamp w 4000 10000 / 2 := by
  rw [clamp_eq _ _ _ (by decide), clamp_eq _ _ _ (by decide)]; omega

/-- Everything one base-clock edge can do to the engine (R131 to R134). -/
theorem baseRegs_cases (p : Pulse) :
    (p.divrun = false ∧ baseRegs p = p) ∨
    (p.divrun = true ∧ p.divcnt.toNat + 1 ≠ p.tickPrescale.toNat ∧ baseRegs p = { p with divcnt := p.divcnt + 1 }) ∨
    (p.divrun = true ∧ p.divcnt.toNat + 1 = p.tickPrescale.toNat ∧ p.tcnt + 1 ≠ p.cmp ∧
      baseRegs p = { p with divcnt := 0, tcnt := p.tcnt + 1 }) ∨
    (p.divrun = true ∧ p.divcnt.toNat + 1 = p.tickPrescale.toNat ∧ p.tcnt + 1 = p.cmp ∧ p.pstate = .delay ∧
      baseRegs p = { p with divcnt := 0, tcnt := 0, pstate := .width, cmp := p.widthTicks, out := true }) ∨
    (p.divrun = true ∧ p.divcnt.toNat + 1 = p.tickPrescale.toNat ∧ p.tcnt + 1 = p.cmp ∧ p.pstate = .width ∧
      baseRegs p = { p with divcnt := 0, tcnt := 0, out := false, divrun := false, busy := false, pstate := .complete }) ∨
    (p.divrun = true ∧ p.divcnt.toNat + 1 = p.tickPrescale.toNat ∧ p.tcnt + 1 = p.cmp ∧ p.pstate = .complete ∧
      baseRegs p = { p with divcnt := 0, tcnt := 0 }) := by
  cases hr : p.divrun with
  | false => exact .inl ⟨rfl, by simp [baseRegs, hr]⟩
  | true =>
    refine .inr ?_
    simp only [baseRegs, hr, if_true, true_and]
    by_cases hd : p.divcnt.toNat + 1 = p.tickPrescale.toNat
    · refine .inr ?_
      simp only [hd, if_true, true_and, tickRegs]
      by_cases hm : p.tcnt + 1 = p.cmp
      · refine .inr ?_
        simp only [if_pos hm, matchRegs]
        cases hp : p.pstate with
        | delay => exact .inl ⟨hm, rfl, rfl⟩
        | width => exact .inr (.inl ⟨hm, rfl, rfl⟩)
        | complete => exact .inr (.inr ⟨hm, rfl, rfl⟩)
      · exact .inl ⟨hm, if_neg hm⟩
    · exact .inl ⟨hd, if_neg hd⟩

end Sys2Proof.Machine
end

