-- ==== Sys2Proof/Laws/PerInstr.lean ====
section
/-! SUPPORT. One lemma per instruction about its syntax and encoding (30_encoding.md R91, R93, R103). -/

namespace Sys2Proof.Laws.OpcodeByte

/-- The first byte of the encoding is an assigned code, its top bit says whether the item is an event record, and every item but WRBYTES
has at most nine bytes (R91, R103). -/
def Statement (i : Instr) : Prop :=
  ∃ code operands, encode i = code :: operands ∧ Machine.assignedCode code = true ∧ (i.isEvent = true ↔ code.getLsbD 7 = true) ∧
    ((∀ p, i ≠ .wrbytes p) → operands.length ≤ 8)

/-- The shape of every proof below: the code and the operand bytes of the encoding. -/
theorem of_encode {i : Instr} (code : Byte) (operands : List Byte) (h : encode i = code :: operands)
    (hc : Machine.assignedCode code = true) (he : i.isEvent = code.getLsbD 7) (hl : operands.length ≤ 8) : Statement i :=
  ⟨code, operands, h, hc, by rw [he], fun _ => hl⟩

theorem arm : Statement .arm := of_encode 0x10 [] rfl rfl rfl (by decide)
theorem setman (delay width : Word) : Statement (.setman delay width) := of_encode 0x11 _ rfl rfl rfl (by simp)
theorem setauto : Statement .setauto := of_encode 0x12 [] rfl rfl rfl (by decide)
theorem getstate : Statement .getstate := of_encode 0x13 [] rfl rfl rfl (by decide)
theorem getbusy : Statement .getbusy := of_encode 0x14 [] rfl rfl rfl (by decide)
theorem getdelay : Statement .getdelay := of_encode 0x15 [] rfl rfl rfl (by decide)
theorem getwidth : Statement .getwidth := of_encode 0x16 [] rfl rfl rfl (by decide)
theorem setmode (mode : Byte) : Statement (.setmode mode) := of_encode 0x17 [mode] rfl rfl rfl (by simp)
theorem getmode : Statement .getmode := of_encode 0x18 [] rfl rfl rfl (by decide)
theorem pwron : Statement .pwron := of_encode 0x20 [] rfl rfl rfl (by decide)
theorem pwroff : Statement .pwroff := of_encode 0x21 [] rfl rfl rfl (by decide)
theorem play (value : Word) : Statement (.play value) := of_encode 0x22 _ rfl rfl rfl (by simp)
theorem fill (code : Byte) : Statement (.fill code) := of_encode 0x23 [code] rfl rfl rfl (by simp)
theorem fillat (code index : Byte) : Statement (.fillat code index) := of_encode 0x24 [code, index] rfl rfl rfl (by simp)
theorem received : Statement .received := of_encode 0x30 [] rfl rfl rfl (by decide)
theorem rdbyte : Statement .rdbyte := of_encode 0x31 [] rfl rfl rfl (by decide)
theorem wrbytes (payload : List Byte) : Statement (.wrbytes payload) :=
  ⟨0x32, payload ++ [Config.term], rfl, rfl, by simp [Instr.isEvent], fun h => absurd rfl (h payload)⟩
theorem flush : Statement .flush := of_encode 0x33 [] rfl rfl rfl (by decide)
theorem evTrig : Statement .evTrig := of_encode 0x80 [] rfl rfl rfl (by decide)
theorem evBase : Statement .evBase := of_encode 0x81 [] rfl rfl rfl (by decide)
theorem evRefresh : Statement .evRefresh := of_encode 0x82 [] rfl rfl rfl (by decide)
theorem evRx (b : Byte) : Statement (.evRx b) := of_encode 0x83 [b] rfl rfl rfl (by simp)
theorem evTxrdy (level : Byte) : Statement (.evTxrdy level) := of_encode 0x84 [level] rfl rfl rfl (by simp)
theorem evReset : Statement .evReset := of_encode 0x8F [] rfl rfl rfl (by decide)

end Sys2Proof.Laws.OpcodeByte
end

