-- ==== Sys2Proof/Laws/Step.lean ====
section
/-! SUPPORT. What exec and step can do, said once: the registers of each sub-block after an instruction, and the three kinds of step. -/

namespace Sys2Proof.Machine

/-- The registers of the pulse engine after an instruction that answers a next state. -/
theorem exec_pulse {i : Instr} {s t : State} (h : exec i s = .next t) :
    t.pulse = s.pulse ∨
    ((i = .arm ∨ i = .evTrig) ∧ t.pulse = (arm s).pulse) ∨
    (∃ d w, i = .setman d w ∧ manualMode s.pulse = true ∧ s.pulse.busy = false ∧ t.pulse = loadManual s.pulse d w) ∨
    (i = .setauto ∧ s.pulse.busy = false ∧ t.pulse = loadAuto s.pulse s.tables) ∨
    (∃ m, i = .setmode m ∧ t.pulse = { s.pulse with mode := m }) ∨
    (i = .evBase ∧ t.pulse = baseRegs s.pulse) ∨
    (i = .evReset ∧ t.pulse = Pulse.reset) := by
  cases i with
  | arm => cases h; exact .inr (.inl ⟨.inl rfl, rfl⟩)
  | evTrig => cases h; exact .inr (.inl ⟨.inr rfl, rfl⟩)
  | setman d w =>
    simp only [exec, execSetman] at h
    split at h
    · split at h
      · cases h
      · rename_i hm hb
        cases h; exact .inr (.inr (.inl ⟨d, w, rfl, hm, by simpa using hb, rfl⟩))
    · cases h; exact .inl rfl
  | setauto =>
    simp only [exec, execSetauto] at h
    split at h
    · cases h
    · rename_i hb
      cases h; exact .inr (.inr (.inr (.inl ⟨rfl, by simpa using hb, rfl⟩)))
  | setmode m => cases h; exact .inr (.inr (.inr (.inr (.inl ⟨m, rfl, rfl⟩))))
  | evBase => cases h; exact .inr (.inr (.inr (.inr (.inr (.inl ⟨rfl, rfl⟩)))))
  | evReset => cases h; exact .inr (.inr (.inr (.inr (.inr (.inr ⟨rfl, rfl⟩)))))
  | play v =>
    simp only [exec, execPlay, acceptCommand] at h
    split at h <;> cases h <;> simp
  | fillat c k =>
    simp only [exec, execFillat] at h
    split at h <;> cases h <;> simp
  | evRefresh =>
    simp only [exec, execEvRefresh, refreshStep] at h
    split at h <;> cases h <;> simp
  | fill c => cases h; simp [acceptCommand]
  | rdbyte => cases h; simp [acceptCommand]
  | wrbytes p => cases h; simp [acceptCommand]
  | getstate => cases h; exact .inl rfl
  | getbusy => cases h; exact .inl rfl
  | getdelay => cases h; exact .inl rfl
  | getwidth => cases h; exact .inl rfl
  | getmode => cases h; exact .inl rfl
  | pwron => cases h; exact .inl rfl
  | pwroff => cases h; exact .inl rfl
  | received => cases h; exact .inl rfl
  | flush => cases h; exact .inl rfl
  | evRx b => cases h; exact .inl rfl
  | evTxrdy l => cases h; exact .inl rfl

/-- The part of the state an instruction never writes (but a reset, which clears the bytes accepted of a partial command): the
tables, the stimulus still to come, the bytes accepted. -/
theorem exec_fixed {i : Instr} {s t : State} (h : exec i s = .next t) :
    t.tables = s.tables ∧ t.stim = s.stim ∧ (i ≠ .evReset → t.port.accepted = s.port.accepted) ∧
    ringSize t.serial = ringSize s.serial := by
  cases i with
  | arm => cases h; unfold arm; split <;> simp
  | evTrig => cases h; unfold arm; split <;> simp
  | setman d w =>
    simp only [exec, execSetman] at h
    split at h
    · split at h <;> cases h; simp
    · cases h; simp
  | setauto =>
    simp only [exec, execSetauto] at h
    split at h <;> cases h; simp
  | play v =>
    simp only [exec, execPlay, acceptCommand] at h
    split at h <;> cases h <;> simp
  | fillat c k =>
    simp only [exec, execFillat] at h
    split at h <;> cases h <;> simp
  | evRefresh =>
    simp only [exec, execEvRefresh, refreshStep] at h
    split at h <;> cases h <;> simp
  | evReset => cases h; simp
  | fill c => cases h; simp [acceptCommand]
  | rdbyte => cases h; simp [acceptCommand]
  | wrbytes p => cases h; simp [acceptCommand]
  | setmode m => cases h; simp
  | evBase => cases h; simp
  | getstate => cases h; simp
  | getbusy => cases h; simp
  | getdelay => cases h; simp
  | getwidth => cases h; simp
  | getmode => cases h; simp
  | pwron => cases h; simp
  | pwroff => cases h; simp
  | received => cases h; simp
  | flush => cases h; simp [ringSize]
  | evRx b => cases h; simp
  | evTxrdy l => cases h; simp [ringSize]

/-- The three kinds of step: nothing but the stimulus and a port byte; a sub-step; an instruction, run where an event or the host
may (the port is then as it was, or free). -/
theorem step_cases {s t : State} (h : step s = .next t) :
    ∃ m q,
      (t = { s with stim := m, port := q } ∧
        (q = s.port ∨ s.port.pending = none ∧ q.pending = none ∧ decodePort q.accepted = .incomplete)) ∨
      (q = s.port ∧ t = runSub { s with stim := m, port := q }) ∨
      (∃ i, exec i { s with stim := m, port := q } = .next t ∧
        ((i.isEvent = true ∧ q = s.port) ∨ q = ⟨[], none⟩)) := by
  have item : ∀ u : State, stepItem u = .next t →
      (t = u ∨ ∃ i rest, exec i (u.withTrace rest) = .next t ∧ (i.isEvent = true ∨ u.port = ⟨[], none⟩)) := by
    intro u hu
    unfold stepItem at hu
    split at hu
    · split at hu
      · refine .inr ⟨_, _, hu, ?_⟩
        rename_i i rest _ hg
        rcases Bool.or_eq_true_iff.mp hg with hg | hg
        · exact .inl hg
        · right
          obtain ⟨ha, hb⟩ := Bool.and_eq_true_iff.mp hg
          cases hq : u.port with
          | mk a c =>
            rw [hq] at ha hb
            cases a <;> cases c <;> simp_all
      · cases hu
    · cases hu
    · cases hu; exact .inl rfl
  unfold step at h
  split at h
  · unfold stepInOrder at h
    split at h
    · cases h; exact ⟨s.stim, s.port, .inr (.inl ⟨rfl, rfl⟩)⟩
    · rcases item s h with rfl | ⟨i, rest, he, hg⟩
      · exact ⟨t.stim, t.port, .inl ⟨rfl, .inl rfl⟩⟩
      · refine ⟨{ s.stim with trace := rest }, s.port, .inr (.inr ⟨i, he, ?_⟩)⟩
        rcases hg with hg | hg
        · exact .inl ⟨hg, rfl⟩
        · exact .inr hg
  · rename_i ts _
    rcases item _ h with rfl | ⟨i, rest, he, hg⟩
    · exact ⟨{ s.stim with turns := ts }, s.port, .inl ⟨rfl, .inl rfl⟩⟩
    · refine ⟨⟨rest, ts⟩, s.port, .inr (.inr ⟨i, he, ?_⟩)⟩
      rcases hg with hg | hg
      · exact .inl ⟨hg, rfl⟩
      · exact .inr hg
  · rename_i ts _
    cases h
    exact ⟨{ s.stim with turns := ts }, s.port, .inr (.inl ⟨rfl, rfl⟩)⟩
  · rename_i ts _
    unfold stepPortByte at h
    split at h
    · cases h; exact ⟨{ s.stim with turns := ts }, s.port, .inl ⟨rfl, .inl rfl⟩⟩
    · rename_i b rest _
      split at h
      · cases h; exact ⟨{ s.stim with turns := ts }, s.port, .inl ⟨rfl, .inl rfl⟩⟩
      · rename_i hp
        have hp : s.port.pending = none := by
          cases hq : s.port.pending with
          | none => rfl
          | some c => exact absurd (by simp [hq]) hp
        split at h
        · rename_i i _ _
          refine ⟨⟨rest, ts⟩, ⟨[], none⟩, .inr (.inr ⟨i, ?_, .inr rfl⟩)⟩
          simpa [State.withTurns, State.withTrace, State.withStim, State.withPort, hp] using h
        · cases h
        · cases h
          refine ⟨⟨rest, ts⟩, { s.port with accepted := s.port.accepted ++ [b] }, .inl ⟨rfl, .inr ⟨hp, hp, ‹_›⟩⟩⟩

end Sys2Proof.Machine
end

