-- ==== Sys2Proof/Tests/Slice0.lean ====
section
/-! SUPPORT. Tests. Expected results are from spec/95_test_vectors.md (the vector's name stands at each test), from the encoding tables of
spec/30_encoding.md R91, R93, R101, R103, or worked out by hand from the rule named; the last part shows, for every statement with
hypotheses, a concrete case that meets them (`met_…`). -/

namespace Sys2Proof.Tests

open Machine

/-! ## Helpers -/

/-- The answer is a next state with the property. -/
def gives (r : Result) (p : State → Bool) : Bool :=
  match r with
  | .next t => p t
  | .fault _ => false
  | .refused _ => false

/-- The answer is a next state. -/
def completes (r : Result) : Bool := gives r fun _ => true

/-- The test instance of spec/95_test_vectors.md: the reset state with N = 8. -/
def lab : State := { State.reset with serial := ⟨[0, 0, 0, 0, 0, 0, 0, 0], 0, 0, false⟩ }

/-- The test instance with other registers of the pulse engine. -/
def labPulse (f : Pulse → Pulse) : State := { lab with pulse := f lab.pulse }

/-- In manual mode, idle. -/
def manualIdle : State := labPulse fun p => { p with mode := 1 }

/-- In manual mode, a cycle in Delay under way. -/
def manualBusy : State := labPulse fun p => { p with mode := 1, delayTicks := 3, widthTicks := 2, cmp := 3, busy := true, divrun := true }

/-- The same with the coarse tick. -/
def coarseBusy : State := labPulse fun p => { p with mode := 1, tickPrescale := 2, cmp := 35000, busy := true, divrun := true }

/-- Idle, with the coarse tick. -/
def coarseIdle : State := labPulse fun p => { p with tickPrescale := 2 }

/-- A cycle armed with the reset parameters, one tick before its first match (T-PTE-21). -/
def fullLap : State := labPulse fun p => { p with tcnt := 65535, busy := true, divrun := true }

/-- A cycle in Width under way, one tick before its end. -/
def lastTick : State :=
  labPulse fun p =>
    { p with
      delayTicks := 3, widthTicks := 2, cmp := 2, tcnt := 1, pstate := .width, busy := true, divrun := true, out := true }

/-- With another display. -/
def labDisplay (d : Display) : State := { lab with display := d }

/-- Showing PLAY 12345, slot 4 lit (T-DMX-14). -/
def scanning : State := labDisplay ⟨#v[0x6D, 0x66, 0x4F, 0x5B, 0x86], 4, 0x86, true, true⟩

/-- Showing the dashes of T-DMX-8, off. -/
def dashes : State := labDisplay ⟨#v[0x40, 0x40, 0x40, 0x40, 0x40], 0, 0, false, false⟩

/-- One byte received, not read. -/
def oneByte : State := { lab with serial := ⟨[0x41, 0, 0, 0, 0, 0, 0, 0], 0, 1, false⟩ }

/-- The transmitter ready. -/
def ready : State := { lab with serial := ⟨[0, 0, 0, 0, 0, 0, 0, 0], 0, 0, true⟩ }

/-- RDBYTE held. -/
def heldRead : State := { lab with port := ⟨[], some .read⟩ }

/-- With a stimulus to come. -/
def withTrace (s : State) (bs : List Byte) (ts : List Turn) : State := { s with stim := ⟨bs, ts⟩ }

/-! ## Well-formedness (30_encoding.md R98, R106) -/

theorem test_wf_refuses_term_in_payload : Instr.wf (.wrbytes [0x41, 0x00]) = false := by decide
theorem test_wf_accepts_payload_without_term : Instr.wf (.wrbytes [0x41, 0xFF]) = true := by decide

/-! ## Decoding: every constructor, words written out from R93 and R103 -/

theorem test_decode_pulse_engine :
    decode [0x10] = .ok .arm [] ∧
    decode [0x11, 0x70, 0x11, 0x01, 0x00, 0x71, 0x17, 0x00, 0x00] = .ok (.setman 70000 6001) [] ∧
    decode [0x12] = .ok .setauto [] ∧
    decode [0x13] = .ok .getstate [] ∧
    decode [0x14] = .ok .getbusy [] ∧
    decode [0x15] = .ok .getdelay [] ∧
    decode [0x16] = .ok .getwidth [] ∧
    decode [0x17, 0x80] = .ok (.setmode 128) [] ∧
    decode [0x18] = .ok .getmode [] := by decide

theorem test_decode_display :
    decode [0x20] = .ok .pwron [] ∧
    decode [0x21] = .ok .pwroff [] ∧
    decode [0x22, 0xA0, 0x86, 0x01, 0x00] = .ok (.play 100000) [] ∧
    decode [0x23, 0xFF] = .ok (.fill 255) [] ∧
    decode [0x24, 0x76, 0x03] = .ok (.fillat 0x76 3) [] := by decide

theorem test_decode_serial :
    decode [0x30] = .ok .received [] ∧
    decode [0x31] = .ok .rdbyte [] ∧
    decode [0x32, 0x4F, 0x4B, 0x0A, 0x00, 0x13] = .ok (.wrbytes [0x4F, 0x4B, 0x0A]) [0x13] ∧
    decode [0x32, 0x00] = .ok (.wrbytes []) [] ∧
    decode [0x33] = .ok .flush [] := by decide

theorem test_decode_events :
    decode [0x80] = .ok .evTrig [] ∧
    decode [0x81] = .ok .evBase [] ∧
    decode [0x82] = .ok .evRefresh [] ∧
    decode [0x83, 0x41] = .ok (.evRx 0x41) [] ∧
    decode [0x84, 0x01] = .ok (.evTxrdy 1) [] ∧
    decode [0x8F] = .ok .evReset [] := by decide

/-- The words as spec/opcode_table.json numbers them: bit 0 is the least significant bit of the first byte. -/
theorem test_decode_table_words :
    decodeTableWord 8 0x10 = some .arm ∧
    decodeTableWord 72 0x0000138800002EE011 = some (.setman 12000 5000) ∧
    decodeTableWord 24 0x037624 = some (.fillat 0x76 3) ∧
    decodeTableWord 8 0x32 = some (.wrbytes []) ∧
    decodeTableWord 8 0x8F = some .evReset ∧
    decodeTableWord 8 0x19 = none := by decide

/-- R96, R103: the neighbours of the assigned codes are reserved, and event codes are reserved on the port. -/
theorem test_reserved_codes :
    decode [0x0F] = .reserved 0x0F ∧ decode [0x19, 0x13] = .reserved 0x19 ∧ decode [0x1F] = .reserved 0x1F ∧
    decode [0x25] = .reserved 0x25 ∧ decode [0x34] = .reserved 0x34 ∧ decode [0x85] = .reserved 0x85 ∧
    decode [0x90] = .reserved 0x90 ∧ decodePort [0x80] = .reserved 0x80 ∧ decodePort [0x8F] = .reserved 0x8F := by decide

/-- T-ENC-1. -/
theorem test_split_trace :
    splitTrace [0x17, 0x01, 0x11, 0xE0, 0x2E, 0x00, 0x00, 0x88, 0x13, 0x00, 0x00, 0x80, 0x81, 0x13] =
      [.instr (.setmode 1), .instr (.setman 12000 5000), .instr .evTrig, .instr .evBase, .instr .getstate] := by decide

/-- T-ENC-2. -/
theorem test_truncated_play : splitTrace [0x22, 0x39, 0x30] = [.incomplete [0x22, 0x39, 0x30]] := by decide

/-- R101: comment, tab, hexadecimal, repetition, the escapes; what has no encoding is refused. -/
theorem test_assembler_forms :
    Asm.assemble "3 * EV_BASE ; three".toList = some [0x81, 0x81, 0x81] ∧
    Asm.assemble "\nEV_RX 0x4b\n\tEV_RESET".toList = some [0x83, 0x4B, 0x8F] ∧
    Asm.assemble "WRBYTES \"\\x41;\\\"\\\\\\r\"".toList = some [0x32, 0x41, 0x3B, 0x22, 0x5C, 0x0D, 0x00] ∧
    Asm.assemble "WRBYTES \"\\x00\"".toList = none ∧
    Asm.assemble "SETMODE 256".toList = none := by decide

/-- R95, T-ENC-4: the response to GETDELAY after SETMAN 99999, 5000, as bytes. -/
theorem test_response_bytes : responseBytes ⟨[99998, 1], [], []⟩ = [0x9E, 0x86, 0x01, 0x00, 0x01, 0x00, 0x00, 0x00] := by decide

/-- R228. -/
theorem test_coinciding_order :
    coinciding [.getbusy, .evTxrdy 1, .evRx 2, .evRefresh, .evBase, .evTrig, .evReset] =
      [.evReset, .evTrig, .evBase, .evRefresh, .evRx 2, .evTxrdy 1, .getbusy] := by decide

/-! ## Pulse engine -/

/-- R120: from Complete of an earlier cycle, DELAYTICKS = 3. -/
theorem test_arm_accepted :
    gives (exec .arm (labPulse fun p => { p with delayTicks := 3, cmp := 2, tcnt := 7, divcnt := 1, pstate := .complete })) (fun t =>
      decide (t.pulse.tcnt = 0 ∧ t.pulse.divcnt = 0 ∧ t.pulse.cmp = 3 ∧ t.pulse.pstate = .delay ∧ t.pulse.busy ∧ t.pulse.divrun)) = true := by
  decide

/-- T-PTE-20: a trigger while busy does not clear TCNT. -/
theorem test_trigger_rejected :
    gives (exec .evTrig (labPulse fun p => { p with busy := true, divrun := true, tcnt := 100, cmp := 12000 })) (fun t =>
      decide (t.pulse.tcnt = 100 ∧ t.pulse.cmp = 12000)) = true := by
  decide

/-- T-PTE-7. -/
theorem test_setman_coarse :
    gives (exec (.setman 65536 3999) manualIdle) (fun t =>
      decide (t.pulse.delayTicks = 32768 ∧ t.pulse.widthTicks = 2000 ∧ t.pulse.tickPrescale = 2)) = true := by
  decide

/-- T-PTE-5. -/
theorem test_setman_fine :
    gives (exec (.setman 65535 20000) manualIdle) (fun t =>
      decide (t.pulse.delayTicks = 65535 ∧ t.pulse.widthTicks = 10000 ∧ t.pulse.tickPrescale = 1)) = true := by
  decide

/-- P4: the twelfth SETAUTO loads entry 11. -/
theorem test_setauto_entry_11 :
    gives (exec .setauto (labPulse fun p => { p with atcur := 11, tickPrescale := 2 })) (fun t =>
      decide (t.pulse.delayTicks = 60000 ∧ t.pulse.widthTicks = 6000 ∧ t.pulse.tickPrescale = 1 ∧ t.pulse.atcur = 12)) = true := by
  decide

/-- P4: the twentieth loads entry 19 and wraps the cursor. -/
theorem test_setauto_wraps :
    gives (exec .setauto (labPulse fun p => { p with atcur := 19 })) (fun t =>
      decide (t.pulse.delayTicks = 5000 ∧ t.pulse.widthTicks = 11000 ∧ t.pulse.atcur = 0)) = true := by
  decide

/-- R124: Complete is 2. -/
theorem test_getstate : gives (exec .getstate (labPulse fun p => { p with pstate := .complete })) (fun t => decide (t.seen.resp = [2])) = true := by
  decide

/-- T-PTE-20. -/
theorem test_getbusy : gives (exec .getbusy manualBusy) (fun t => decide (t.seen.resp = [1])) = true := by decide

/-- T-PTE-11. -/
theorem test_getdelay :
    gives (exec .getdelay (labPulse fun p => { p with delayTicks := 49999, tickPrescale := 2 })) (fun t => decide (t.seen.resp = [99998])) = true := by
  decide

/-- T-PTE-12. -/
theorem test_getwidth :
    gives (exec .getwidth (labPulse fun p => { p with widthTicks := 4999, tickPrescale := 2 })) (fun t => decide (t.seen.resp = [9998])) = true := by
  decide

/-- T-PTE-16. -/
theorem test_setmode_getmode : gives (execAll [.setmode 0x80, .getmode] lab) (fun t => decide (t.seen.resp = [128])) = true := by decide

/-- T-PTE-17: with TICKPRESCALE = 2 the first edge only counts. -/
theorem test_base_edge_divides :
    gives (exec .evBase coarseBusy) (fun t =>
      decide (t.pulse.divcnt = 1 ∧ t.pulse.tcnt = 0)) = true := by
  decide

/-- T-PTE-18, edges 1 to 5. -/
theorem test_base_edge_matches :
    gives (execAll (List.replicate 3 .evBase) manualBusy) (fun t =>
      decide (t.pulse.tcnt = 0 ∧ t.pulse.cmp = 2 ∧ t.pulse.pstate = .width ∧ t.pulse.busy ∧ outLevel t.pins = .hi ∧ t.pulse.divrun)) = true ∧
    gives (execAll (List.replicate 5 .evBase) manualBusy) (fun t =>
      decide (t.pulse.tcnt = 0 ∧ t.pulse.cmp = 2 ∧ t.pulse.pstate = .complete ∧ t.pulse.busy = false ∧ outLevel t.pins = .lo)) = true := by
  decide

/-! ## Display -/

/-- R164: switched on with no digit lit, the segments show the latch. -/
theorem test_pwron : gives (exec .pwron dashes) (fun t => decide (t.pins = ⟨false, some (0b00000, 0x00)⟩)) = true := by decide

/-- T-DMX-16: off keeps cursor and latch. -/
theorem test_pwroff :
    gives (exec .pwroff scanning) (fun t =>
      decide (t.pins = ⟨false, none⟩ ∧ t.display.cursor = 4 ∧ t.display.seglatch = 0x86 ∧ t.display.lit = false)) = true := by
  decide

/-- T-DMX-3, with its four further sub-steps. -/
theorem test_play :
    gives (exec (.play 12345) lab) (fun t =>
      decide (t.display.dbuf = #v[0x6D, 0, 0, 0, 0] ∧ (subSteps 4 t).display.dbuf = #v[0x6D, 0x66, 0x4F, 0x5B, 0x86] ∧
        (subSteps 4 t).port.pending = none)) = true := by
  decide

/-- T-DMX-17: a refresh after the second byte write shows the old byte of slot 2. -/
theorem test_play_interleaved :
    gives (exec (.play 12345) (labDisplay ⟨#v[0x40, 0x40, 0x40, 0x40, 0x40], 1, 0x40, true, true⟩)) (fun t =>
      gives (exec .evRefresh (subSteps 1 t)) (fun u =>
        decide (u.display.seglatch = 0x40 ∧ u.display.cursor = 2 ∧
          (subSteps 3 u).display.dbuf = #v[0x6D, 0x66, 0x4F, 0x5B, 0x86]))) = true := by
  decide

/-- T-DMX-9. -/
theorem test_fill :
    gives (exec (.fill 0xFF) dashes) (fun t => decide ((subSteps 4 t).display.dbuf = #v[0xFF, 0xFF, 0xFF, 0xFF, 0xFF])) = true := by decide

/-- T-DMX-11 and T-DMX-12. -/
theorem test_fillat :
    gives (exec (.fillat 0x76 4) dashes) (fun t => decide (t.display.dbuf = #v[0x40, 0x40, 0x40, 0x40, 0x76])) = true ∧
    gives (exec (.fillat 0x76 5) dashes) (fun t => decide (t.display = dashes.display)) = true := by
  decide

/-- T-DMX-14. -/
theorem test_refresh :
    gives (exec .evRefresh scanning) (fun t =>
      decide (t.seen.pins.tail = [⟨false, some (0b00000, 0x86)⟩, ⟨false, some (0b00000, 0x6D)⟩, ⟨false, some (0b00001, 0x6D)⟩])) = true := by
  decide

/-- T-DMX-15. -/
theorem test_refresh_while_off : gives (exec .evRefresh lab) (fun t => decide (t.display = lab.display)) = true := by decide

/-! ## Serial buffer -/

/-- T-SRB-1, the two answers of RECEIVED. -/
theorem test_received :
    gives (exec .received lab) (fun t => decide (t.seen.resp = [0])) = true ∧
    gives (exec .received oneByte) (fun t => decide (t.seen.resp = [1])) = true := by
  decide

/-- T-SRB-5: the read index wraps from 7 to 0. -/
theorem test_rdbyte_wraps :
    gives (exec .rdbyte { lab with serial := ⟨[0xBB, 0, 0, 0, 0, 0, 0, 0xAA], 7, 1, false⟩ }) (fun t =>
      decide (t.seen.resp = [0xAA] ∧ t.serial.head = 0)) = true := by
  decide

/-- T-SRB-7: held, then completed by the reception, in the order of R104. -/
theorem test_rdbyte_held :
    gives (step (withTrace heldRead [0x83, 0x37, 0x13] [])) (fun t =>
      gives (step t) (fun u => decide (u.seen.resp = [0x37] ∧ u.serial.head = 1 ∧ u.serial.tail = 1 ∧ u.port.pending = none))) = true := by
  decide

/-- T-SRB-9: CR LF is sent as CR CR LF; the first byte goes at once. -/
theorem test_wrbytes :
    gives (exec (.wrbytes [0x0D, 0x0A]) ready) (fun t =>
      decide (t.seen.tx = [0x0D] ∧ t.serial.txrdy = false ∧ t.port.pending = some (.send [0x0D, 0x0A]))) = true := by
  decide

/-- T-SRB-9: an empty payload. -/
theorem test_wrbytes_empty : gives (exec (.wrbytes []) ready) (fun t =>
    decide (t.seen.tx = [] ∧ t.serial = ready.serial ∧ t.port.pending = none)) = true := by decide

/-- T-SRB-6. -/
theorem test_flush :
    gives (exec .flush oneByte) (fun t => decide (t.serial.head = 0 ∧ t.serial.tail = 0 ∧ t.serial.ring = oneByte.serial.ring)) = true := by
  decide

/-- P3: the ninth reception overwrites the first. -/
theorem test_reception_overwrites :
    gives (exec (.evRx 0x49) { lab with serial := ⟨[0x41, 0x42, 0x43, 0x44, 0x45, 0x46, 0x47, 0x48], 0, 0, false⟩ }) (fun t =>
      decide (t.serial.ring = [0x49, 0x42, 0x43, 0x44, 0x45, 0x46, 0x47, 0x48] ∧ t.serial.tail = 1 ∧ received t.serial)) = true := by
  decide

/-- T-SRB-2: the index wraps, and the ring reads as empty. -/
theorem test_reception_wraps :
    gives (exec (.evRx 0x48) { lab with serial := ⟨[0x41, 0x42, 0x43, 0x44, 0x45, 0x46, 0x47, 0], 0, 7, false⟩ }) (fun t =>
      decide (t.serial.tail = 0 ∧ received t.serial = false)) = true := by
  decide

/-- R195: any value but 0 is ready. -/
theorem test_txrdy :
    gives (exec (.evTxrdy 0x80) lab) (fun t => t.serial.txrdy) = true ∧ gives (exec (.evTxrdy 0) ready) (fun t => !t.serial.txrdy) = true := by
  decide

/-! ## Reset and the step -/

/-- T-RST-1. -/
theorem test_reset_in_pulse :
    gives (exec .evReset lastTick) (fun t => decide (t.pulse = Pulse.reset ∧ t.pins = ⟨false, none⟩ ∧ ringSize t.serial = 8)) = true := by
  decide

/-- T-RST-2: the held RDBYTE is dropped, the trace goes on. -/
theorem test_reset_drops_command :
    gives (step (withTrace heldRead [0x8F, 0x13] [])) (fun t =>
      gives (step t) (fun u => decide (u.seen.resp = [0] ∧ u.port.pending = none))) = true := by
  decide

/-- T-SRB-7: a command while RDBYTE is pending is ill-formed. -/
theorem test_command_inside_command : step (withTrace heldRead [0x13] []) = .refused (.commandWhilePending .getstate) := rfl

/-- T-ENC-3. -/
theorem test_reserved_refused : step (withTrace lab [0x19, 0x13] []) = .refused (.reservedCode 0x19) := rfl

/-- T-PTE-23. -/
theorem test_load_while_busy :
    exec (.setman 12000 5000) manualBusy = .fault .parameterLoadWhileBusy ∧ exec .setauto manualBusy = .fault .parameterLoadWhileBusy ∧
    completes (exec (.setman 12000 5000) lastTick) = true := ⟨rfl, rfl, rfl⟩

/-! ## Hypotheses met -/

theorem met_DecodeReadsBackEveryEncoding : Instr.wf (.wrbytes []) = true ∧ Instr.wf (.setman 0xFFFFFFFF 0) = true := by decide

theorem met_EveryDecodedItemIsItsEncoding : decode [0x32, 0x41, 0x00, 0x33] = .ok (.wrbytes [0x41]) [0x33] := by decide

theorem met_PortCarriesCommandsOnly :
    (Instr.wf .flush = true ∧ Instr.isEvent .flush = false) ∧ (Instr.wf .evTrig = true ∧ Instr.isEvent .evTrig = true) := by decide

/-- An instruction inside a split, and a list of items of all three kinds that is a legal split. -/
theorem met_TraceSplitsIntoItems :
    (splitTrace [0x17, 0x01, 0x19, 0x22])[0]? = some (.instr (.setmode 1)) ∧
    LegalSplit [.instr (.setmode 1), .reserved 0x19, .incomplete [0x22]] ∧
    ([.instr (.setmode 1), .reserved 0x19, .incomplete [0x22]] : List Item).flatMap Item.bytes = [0x17, 0x01, 0x19, 0x22] := by
  refine ⟨by decide, ⟨by decide, fun k r hk => ?_⟩, by decide⟩
  match k, hk with
  | 2, _ => rfl

theorem met_BeginningOfCommandIsIncomplete :
    (encode (.setmode 1) = [] ++ [0x17, 0x01] ∧ encode (.setmode 1) = [0x17] ++ [0x01]) ∧
    encode (.wrbytes [0x41]) = [0x32, 0x41] ++ [0x00] ∧ Instr.wf (.wrbytes [0x41]) = true ∧ Instr.isEvent (.wrbytes [0x41]) = false := by decide

/-- Each clause at the boundaries of the ranges of codes. -/
theorem met_ReservedCodesAreRefused :
    (subReady (withTrace lab [0x19] []) = false ∧
      ∀ c ∈ ([0x00, 0x0F, 0x19, 0x1F, 0x25, 0x2F, 0x34, 0x7F, 0x85, 0x8E, 0x90, 0xFF] : List Byte), assignedCode c = false) ∧
    (∀ c ∈ ([0x10, 0x18, 0x20, 0x24, 0x30, 0x33, 0x80, 0x84, 0x8F] : List Byte), assignedCode c = true) := by decide

/-- A command with the host free, and an event while a command is held; each kind of turn. -/
theorem met_StepRunsTheDecodedInstruction :
    (decode (withTrace lab [0x13] []).stim.trace = .ok .getstate [] ∧ hostFree (withTrace lab [0x13] []) = true ∧
      subReady (withTrace lab [0x13] []) = false) ∧
    (decode (withTrace heldRead [0x83, 0x37] []).stim.trace = .ok (.evRx 0x37) [] ∧ Instr.isEvent (.evRx 0x37) = true ∧
      subReady (withTrace heldRead [0x83, 0x37] []) = false) ∧
    (withTrace lab [0x13] [.item]).stim.turns = .item :: [] := by decide

theorem met_StepRunsThePlacedInstruction : decodeTableWord 16 0x0117 = some (.setmode 1) := by decide

theorem met_CommandInsideCommandIsRefused :
    decode (withTrace heldRead [0x13] []).stim.trace = .ok .getstate [] ∧ Instr.isEvent .getstate = false ∧
    hostFree (withTrace heldRead [0x13] []) = false ∧ subReady (withTrace heldRead [0x13] []) = false := by decide

theorem met_PendingSubStepComesFirst :
    (subReady { oneByte with port := ⟨[], some .read⟩ } = true ∧ oneByte.stim.turns = []) ∧
    (withTrace heldRead [] [.command]).stim.turns = .command :: [] ∧
    (subReady (withTrace heldRead [0x22, 0x39] []) = false ∧ decode [0x22, 0x39] = .incomplete) := by decide

/-- Also the ends of the reserved codes and of the event codes, on the port. -/
theorem met_CommandTakesEffectAtItsLastByte :
    (lab.port.accepted = [] ∧ (∀ b ∈ ([0x00, 0x0F, 0x19, 0x7F] : List Byte), assignedCode b = false) ∧
      (∀ b ∈ ([0x80, 0x8F, 0xFF] : List Byte), 0x80 ≤ b.toNat)) ∧
    (lab.port.pending = none ∧ decodePort (lab.port.accepted ++ [0x17]) = .incomplete) ∧
    (decodePort ([0x17] ++ [0x01]) = .ok (.setmode 1) [] ∧ (withTrace lab [0x01] [.portByte]).stim = ⟨[0x01], [.portByte]⟩) ∧
    heldRead.port.pending ≠ none := by decide

theorem met_ArmBeginsACycleUnlessBusy : lab.pulse.busy = false ∧ manualBusy.pulse.busy = true := by decide

/-- The last delay of the fine path and the first of the coarse one. -/
theorem met_SetmanStoresClampedParameters :
    lab.pulse.mode = 0 ∧ (manualIdle.pulse.mode ≠ 0 ∧ manualIdle.pulse.busy = false) ∧
    max 5000 (min (65535 : Word).toNat 99999) ≤ 65535 ∧ 65535 < max 5000 (min (65536 : Word).toNat 99999) := by decide

theorem met_SetautoLoadsTheEntryAtTheCursor : (labPulse fun p => { p with atcur := 19 }).pulse.busy = false := by decide

theorem met_ParameterLoadWhileBusyFaults : manualBusy.pulse.busy = true ∧ manualBusy.pulse.mode ≠ 0 := by decide

theorem met_AutoTableRotatesThroughAllEntries : lab.pulse.busy = false ∧ (lab.pulse.atcur.val + 19) % 20 < 20 := by decide

/-- The ends of the three ranges of the delay operand. -/
theorem met_ManualParametersRoundTrip :
    (manualIdle.pulse.mode ≠ 0 ∧ manualIdle.pulse.busy = false) ∧ (65535 : Word).toNat < 65536 ∧
    (65536 ≤ (65536 : Word).toNat ∧ (99999 : Word).toNat < 100000) ∧ 100000 ≤ (100000 : Word).toNat := by decide

theorem met_BaseEdgeDividesAndTicks :
    lab.pulse.divrun = false ∧
    (coarseBusy.pulse.divrun = true ∧ coarseBusy.pulse.divcnt.toNat + 1 ≠ coarseBusy.pulse.tickPrescale.toNat) ∧
    (manualBusy.pulse.divrun = true ∧ manualBusy.pulse.divcnt.toNat + 1 = manualBusy.pulse.tickPrescale.toNat ∧
      manualBusy.pulse.tcnt + 1 ≠ manualBusy.pulse.cmp) ∧
    (lastTick.pulse.divrun = true ∧ lastTick.pulse.divcnt.toNat + 1 = lastTick.pulse.tickPrescale.toNat ∧
      lastTick.pulse.tcnt + 1 = lastTick.pulse.cmp) := by decide

/-- The match in Delay is also met at the wrap of the counter: CMP = 0 and TCNT = 65535 (R132). -/
theorem met_MatchInDelayRaisesTheOutput :
    fullLap.pulse.divrun = true ∧ fullLap.pulse.divcnt.toNat + 1 = fullLap.pulse.tickPrescale.toNat ∧
    fullLap.pulse.tcnt + 1 = fullLap.pulse.cmp ∧ fullLap.pulse.pstate = .delay ∧ fullLap.pulse.out = false := by decide

theorem met_MatchInWidthEndsTheCycle :
    lastTick.pulse.divrun = true ∧ lastTick.pulse.divcnt.toNat + 1 = lastTick.pulse.tickPrescale.toNat ∧
    lastTick.pulse.tcnt + 1 = lastTick.pulse.cmp ∧ lastTick.pulse.pstate = .width ∧ lastTick.pulse.out = true := by decide

/-- Each clause of the cycle, with P = 1, D = 3, W = 2: two, three and five edges; the rejected trigger in between is allowed. -/
theorem met_CycleLengthInBaseEdges :
    let s := labPulse fun p => { p with delayTicks := 3, widthTicks := 2 }
    let total := s.pulse.tickPrescale.toNat * (targetTicks s.pulse.delayTicks + targetTicks s.pulse.widthTicks)
    let edges := fun n => Instr.evTrig :: List.replicate n Instr.evBase
    s.pulse.Inv ∧ s.pulse.busy = false ∧ (∀ j ∈ edges 5, keepsParameters j = true) ∧
    (edges 2).count .evBase < total ∧ (edges 3).count .evBase < total ∧
    (edges 5).count .evBase = total ∧ (edges 5).getLast? = some .evBase := by decide

theorem met_PulseStateChangesOnlyAsTabled :
    completes (exec .arm lab) = true ∧ completes (exec .evBase lastTick) = true ∧ completes (exec .evReset lab) = true := by decide

theorem met_TriggerAndBaseEdgeOrderIsObservable :
    (lab.pulse.Inv ∧ lab.pulse.busy = false ∧ lab.pulse.tickPrescale = 1 ∧ lab.pulse.delayTicks ≠ 1) ∧
    (coarseIdle.pulse.Inv ∧ coarseIdle.pulse.busy = false ∧ coarseIdle.pulse.tickPrescale = 2) ∧
    (lastTick.pulse.Inv ∧ lastTick.pulse.pstate = .width ∧ lastTick.pulse.divcnt + 1 = lastTick.pulse.tickPrescale ∧
      lastTick.pulse.tcnt + 1 = lastTick.pulse.cmp) :=
  ⟨by decide, by decide, by decide⟩

theorem met_PowerSwitchesTheDisplay : dashes.display.lit = false := by decide

theorem met_PlayWritesTheDigitCodes : 100000 ≤ (100000 : Word).toNat ∧ (99999 : Word).toNat < 100000 := by decide

theorem met_FillatWritesOneSlot : 4 < (5 : Byte).toNat ∧ (4 : Byte).toNat ≤ 4 := by decide

theorem met_RefreshShowsTheNextSlot :
    lab.display.dispOn = false ∧ (scanning.display.dispOn = true ∧ scanning.display.lit = true) := by decide

theorem met_FiveRefreshesLightEverySlotOnce : scanning.display.dispOn = true := by decide

theorem met_PlayDecodesBackToItsDigits : lab.tables.Inv ∧ (99999 : Word).toNat < 100000 := by decide

/-- Two machines that differ in the pulse engine and the ring only. -/
theorem met_DisplayDependsOnItselfAlone :
    lastTick ≠ oneByte ∧ lastTick.display = oneByte.display ∧ lastTick.tables = oneByte.tables ∧ lastTick.port.pending = oneByte.port.pending ∧
    completes (exec (.play 7) lastTick) = true ∧ completes (exec (.play 7) oneByte) = true ∧ blockOf (.play 7) ≠ .serial := by
  refine ⟨fun h => ?_, rfl, rfl, rfl, rfl, rfl, by decide⟩
  exact absurd (congrArg (fun s => s.pulse.busy) h) (by decide)

theorem met_ReceptionStoresAtTail : Memory.wf lab.serial ∧ Memory.wf { lab.serial with tail := 7 } := by decide

theorem met_ReadReturnsTheByteAtHeadOrHolds :
    (Memory.wf oneByte.serial ∧ oneByte.serial.head ≠ oneByte.serial.tail) ∧
    (Memory.wf lab.serial ∧ lab.serial.head = lab.serial.tail ∧ Instr.isEvent .evBase = true ∧
      completes (exec .evBase heldRead) = true) := by decide

theorem met_HeldReadCompletesOnReception :
    Memory.wf heldRead.serial ∧ heldRead.port.pending = some .read ∧ heldRead.serial.head = heldRead.serial.tail := by decide

theorem met_WriteSendsOrHolds :
    (([0x0A] : List Byte).flatMap fun c => if c = 0x0A then [0x0D, 0x0A] else [c]) = 0x0D :: [0x0A] ∧
    (([0x41] : List Byte).flatMap fun c => if c = 0x0A then [0x0D, 0x0A] else [c]) = 0x41 :: [] ∧
    lab.serial.txrdy = false ∧ ready.serial.txrdy = true ∧ payloadOk [] = true := by decide

theorem met_FlushAgainstReception : Memory.wf oneByte.serial := by decide

/-- Also with more receptions than cells, and with a whole lap. -/
theorem met_RingReturnsTheLastPartialLap :
    Memory.wf lab.serial ∧ lab.serial.head = lab.serial.tail ∧ 11 % lab.serial.ring.length = 3 ∧ 8 % lab.serial.ring.length = 0 := by decide

theorem met_TailCountsReceptions :
    Memory.wf lab.serial ∧ completes (execAll [.evRx 1, .rdbyte, .evRx 2] lab) = true ∧
    (∀ i ∈ ([.evRx 1, .rdbyte, .evRx 2] : List Instr), i ≠ .flush ∧ i ≠ .evReset) := by decide

theorem met_RingIndicesHaveOneWriterEach :
    lab.port.pending ≠ some .read ∧ completes (exec (.evRx 1) lab) = true ∧ completes (exec .rdbyte oneByte) = true ∧ completes (exec .received lab) = true ∧
    completes (exec .flush oneByte) = true := by decide

/-- An invariant state in the middle of a cycle, and a step it takes. -/
theorem met_EveryStepKeepsTheInvariant :
    (withTrace { lastTick with seen := ⟨[], [], [⟨false, none⟩, ⟨true, none⟩]⟩ } [0x81] []).Inv ∧
    completes (step (withTrace lastTick [0x81] [])) = true := by decide

theorem met_NoStepWritesTheTables : completes (step (withTrace lab [0x12] [])) = true := by decide

theorem met_SubBlocksShareNothing :
    (completes (exec .arm lab) = true ∧ blockOf .arm = .pulse) ∧ (completes (exec .evRefresh scanning) = true ∧ blockOf .evRefresh = .display) ∧
    (completes (exec .rdbyte oneByte) = true ∧ blockOf .rdbyte = .serial) := by decide

/-- One instruction that changes the pins, and one that does not. -/
theorem met_PinLogFollowsEveryChange :
    gives (exec .evBase lastTick) (fun t => decide (t.pins ≠ lastTick.pins)) = true ∧
    gives (exec .setauto lab) (fun t => decide (t.pins = lab.pins)) = true := by decide

theorem met_OnlyQueriesRespond :
    completes (exec .getmode lab) = true ∧ completes (exec (.wrbytes [0x41]) ready) = true ∧
    heldRead.port.pending = some .read ∧ (∀ ws, heldRead.port.pending ≠ some (.stores ws)) := by
  refine ⟨by decide, by decide, rfl, fun ws h => ?_⟩
  cases h

end Sys2Proof.Tests
end

section
/-! PROOFS. The pulse engine (40_pulse_engine.md): what its commands and events answer, said once per case, and the statements assembled
from these equations. -/

namespace Sys2Proof.Machine

/-! ### The arm transition (R120, R121, R135) -/

/-- Both invokers of the arm transition answer the state it makes. -/
theorem exec_of_arms {i : Instr} (s : State) (h : i = .arm ∨ i = .evTrig) : exec i s = .next (arm s) := by
  obtain rfl | rfl := h
  · rfl
  · rfl

/-- Settles O14: both invokers answer `arm s`, whose two outcomes are `arm_of_idle` and `arm_of_busy`. -/
theorem armBeginsACycleUnlessBusy : Obligations.ArmBeginsACycleUnlessBusy := by
  refine ⟨fun _ => ⟨rfl, rfl⟩, fun i s hi => ⟨fun hidle => ?_, fun hbusy => ?_⟩⟩
  · rw [exec_of_arms s hi, arm_of_idle hidle]
    rfl
  · rw [exec_of_arms s hi, arm_of_busy hbusy]

/-! ### The numbers the queries answer (R124, R125, R127, R128, R130, R191) -/

theorem PState.code_toNat (p : PState) : p.code.toNat = if p = .delay then 0 else if p = .width then 1 else 2 := by
  cases p with
  | delay => rfl
  | width => rfl
  | complete => rfl

theorem bit_toNat (b : Bool) : (bit b).toNat = if b then 1 else 0 := by
  cases b with
  | false => rfl
  | true => rfl

/-- 16-bit ticks times an 8-bit ratio fit the 32-bit response: the scaling of R127 and R128 never overflows. -/
theorem toApiUnits_toNat (ticks : Ticks) (prescale : Byte) :
    (toApiUnits ticks prescale).toNat = ticks.toNat * prescale.toNat := by
  have hfit : ticks.toNat * prescale.toNat < 2 ^ 16 * 2 ^ 8 := Nat.mul_lt_mul'' ticks.isLt prescale.isLt
  rw [toApiUnits, BitVec.toNat_ofNat, Nat.mod_eq_of_lt (by omega)]

/-- Settles O19: each query answers `s.respond v` with a `v` that widens a register unchanged, or scales ticks (`toApiUnits_toNat`). -/
theorem queriesRespondAndChangeNothing : Obligations.QueriesRespondAndChangeNothing := by
  refine ⟨fun _ => ⟨rfl, rfl, rfl, rfl, rfl, rfl⟩, fun s => ⟨?getstate, ?getbusy, ?getdelay, ?getwidth, ?getmode, ?received⟩⟩
  case getstate => exact ⟨_, (BitVec.toNat_setWidth_of_le (by decide)).trans (PState.code_toNat _), rfl⟩
  case getbusy => exact ⟨_, (BitVec.toNat_setWidth_of_le (by decide)).trans (bit_toNat _), rfl⟩
  case getdelay => exact ⟨_, toApiUnits_toNat _ _, rfl⟩
  case getwidth => exact ⟨_, toApiUnits_toNat _ _, rfl⟩
  case getmode => exact ⟨_, BitVec.toNat_setWidth_of_le (by decide), rfl⟩
  case received =>
    refine ⟨_, (BitVec.toNat_setWidth_of_le (by decide)).trans (bit_toNat _) |>.trans ?_, rfl⟩
    simp only [received, decide_eq_true_eq]

/-! ### Base edges (R131, R132) -/

theorem baseRegs_of_stopped {p : Pulse} (hrun : p.divrun = false) : baseRegs p = p := by
  simp [baseRegs, hrun]

theorem baseRegs_of_divide {p : Pulse} (hrun : p.divrun = true) (hdiv : p.divcnt.toNat + 1 ≠ p.tickPrescale.toNat) :
    baseRegs p = { p with divcnt := p.divcnt + 1 } := by
  simp [baseRegs, hrun, hdiv]

theorem baseRegs_of_full {p : Pulse} (hrun : p.divrun = true) (hdiv : p.divcnt.toNat + 1 = p.tickPrescale.toNat) :
    baseRegs p = tickRegs { p with divcnt := 0 } := by
  simp [baseRegs, hrun, hdiv]

theorem tickRegs_of_count {p : Pulse} (h : p.tcnt + 1 ≠ p.cmp) : tickRegs p = { p with tcnt := p.tcnt + 1 } := if_neg h

theorem tickRegs_of_match {p : Pulse} (h : p.tcnt + 1 = p.cmp) : tickRegs p = matchRegs { p with tcnt := 0 } := if_pos h

@[simp] theorem matchRegs_divcnt (p : Pulse) : (matchRegs p).divcnt = p.divcnt := by
  unfold matchRegs; split <;> rfl

@[simp] theorem matchRegs_tcnt (p : Pulse) : (matchRegs p).tcnt = p.tcnt := by
  unfold matchRegs; split <;> rfl

theorem matchRegs_pstate_of_delay {p : Pulse} (h : p.pstate = .delay) : (matchRegs p).pstate = .width := by
  simp only [matchRegs, h]

theorem matchRegs_pstate_of_width {p : Pulse} (h : p.pstate = .width) : (matchRegs p).pstate = .complete := by
  simp only [matchRegs, h]

theorem exec_evBase (s : State) : exec .evBase s = .next (s.drive (baseRegs s.pulse) s.display) := rfl

/-- An edge that leaves OUT as it was writes the engine's registers and nothing else: the log of pins stays. -/
theorem exec_evBase_of_same_out {s : State} {p : Pulse} (hp : baseRegs s.pulse = p) (hout : p.out = s.pulse.out) :
    exec .evBase s = .next { s with pulse := p } := by
  rw [exec_evBase, hp, State.drive_of_same_pins s p s.display (pinsOf_eq_of_out s.display hout)]

/-- Settles O22: the cases of `baseRegs` one by one; without a match OUT stays, and a match is read off `matchRegs`. -/
theorem baseEdgeDividesAndTicks : Obligations.BaseEdgeDividesAndTicks := by
  refine ⟨fun _ => rfl, fun s => ⟨fun hrun => ?stopped, fun hrun hdiv => ?divide, fun hrun hdiv hcnt => ?tick,
    fun hrun hdiv hcnt => ?reached⟩⟩
  case stopped => exact exec_evBase_of_same_out (baseRegs_of_stopped hrun) rfl
  case divide => exact exec_evBase_of_same_out (baseRegs_of_divide hrun hdiv) rfl
  case tick =>
    have hregs : baseRegs s.pulse = { s.pulse with divcnt := 0, tcnt := s.pulse.tcnt + 1 } :=
      (baseRegs_of_full hrun hdiv).trans (tickRegs_of_count hcnt)
    exact exec_evBase_of_same_out hregs rfl
  case reached =>
    have hregs : baseRegs s.pulse = matchRegs { s.pulse with divcnt := 0, tcnt := 0 } :=
      (baseRegs_of_full hrun hdiv).trans (tickRegs_of_match hcnt)
    refine ⟨_, exec_evBase s, ?_⟩
    rw [State.drive_pulse, hregs]
    exact ⟨matchRegs_divcnt _, matchRegs_tcnt _, fun hdelay => matchRegs_pstate_of_delay hdelay,
      fun hwidth => matchRegs_pstate_of_width hwidth⟩

/-! ### Parameter loads (R122, R123, R126) -/

theorem exec_setauto_of_idle {s : State} (h : s.pulse.busy = false) :
    exec .setauto s = .next (s.withPulse (loadAuto s.pulse s.tables)) := by
  simp [exec, execSetauto, h]

theorem exec_setauto_of_busy {s : State} (h : s.pulse.busy = true) : exec .setauto s = .fault .parameterLoadWhileBusy := by
  simp [exec, execSetauto, h]

theorem exec_setman_of_automatic (delay width : Word) {s : State} (h : s.pulse.mode = 0) :
    exec (.setman delay width) s = .next s := by
  simp [exec, execSetman, manualMode, h]

theorem exec_setman_of_busy (delay width : Word) {s : State} (hmode : s.pulse.mode ≠ 0) (hbusy : s.pulse.busy = true) :
    exec (.setman delay width) s = .fault .parameterLoadWhileBusy := by
  simpa [exec, execSetman, manualMode, hbusy] using hmode

/-- R123: the cursor goes from the last entry back to the first. -/
theorem loadAuto_atcur_val (p : Pulse) (t : Tables) : (loadAuto p t).atcur.val = (p.atcur.val + 1) % 20 :=
  Fin.val_add p.atcur 1

/-- Settles O16: an idle SETAUTO stores `loadAuto`, which writes the four parameters alone. -/
theorem setautoLoadsTheEntryAtTheCursor : Obligations.SetautoLoadsTheEntryAtTheCursor := by
  refine ⟨fun _ => rfl, fun s hidle => ⟨_, exec_setauto_of_idle hidle, ?_⟩⟩
  exact ⟨rfl, rfl, rfl, loadAuto_atcur_val s.pulse s.tables, rfl⟩

/-- Settles O17: the two faults of R126 and the load that automatic mode leaves out. -/
theorem parameterLoadWhileBusyFaults : Obligations.ParameterLoadWhileBusyFaults := fun delay width _ hbusy =>
  ⟨exec_setauto_of_busy hbusy, fun hmode => exec_setman_of_busy delay width hmode hbusy, exec_setman_of_automatic delay width⟩

/-! ### The mode (R129) -/

/-- Settles O20: SETMODE is one write of MODE, whatever the state. -/
theorem setmodeStoresTheByte : Obligations.SetmodeStoresTheByte :=
  ⟨fun _ _ => rfl, fun _ _ => rfl⟩

end Sys2Proof.Machine
end

section
/-! PROOFS. The display multiplexer (41_display.md): the levels of the display lines, and what the power switch and the one-slot write
answer. -/

namespace Sys2Proof.Machine

/-! ### The display lines (R50, R51) -/

theorem digLevel_of_dispOff (p : Pulse) {d : Display} (hoff : d.dispOn = false) (i : Fin 5) : digLevel (pinsOf p d) i = .z := by
  simp [pinsOf, digLevel, hoff]

theorem segLevel_of_dispOff (p : Pulse) {d : Display} (hoff : d.dispOn = false) (j : Fin 8) : segLevel (pinsOf p d) j = .z := by
  simp [pinsOf, segLevel, hoff]

theorem digLevel_of_unlit (p : Pulse) {d : Display} (hon : d.dispOn = true) (hlit : d.lit = false) (i : Fin 5) :
    digLevel (pinsOf p d) i = .lo := by
  simp [pinsOf, digLevel, digLines, hon, hlit, Level.ofBool]

theorem segLevel_of_dispOn (p : Pulse) {d : Display} (hon : d.dispOn = true) (j : Fin 8) :
    segLevel (pinsOf p d) j = .ofBool (d.seglatch.getLsbD j.val) := by
  simp [pinsOf, segLevel, hon]

/-! ### The power switch (R164, R165) -/

/-- Driving the pins writes the registers given and the log of pins, nothing else. -/
theorem State.drive_frame (s : State) (p : Pulse) (d : Display) :
    s.drive p d = { s with pulse := p, display := d, seen := { s.seen with pins := (s.drive p d).seen.pins } } := by
  have hseen : (s.drive p d).seen = { s.seen with pins := (s.drive p d).seen.pins } := by
    rw [State.drive_seen]
    split
    · rfl
    · rfl
  rw [← hseen]
  rfl

/-- Settles O28: PWRON and PWROFF are one `drive` each, so `State.drive_frame` is their frame; the pins are read off the new
display registers. -/
theorem powerSwitchesTheDisplay : Obligations.PowerSwitchesTheDisplay := by
  refine ⟨fun _ => ⟨rfl, rfl⟩, fun s => ⟨?pwron, ?pwroff⟩⟩
  case pwron =>
    refine ⟨_, rfl, State.drive_frame s _ _, fun hlit i => ?_, fun j => segLevel_of_dispOn _ rfl j⟩
    exact digLevel_of_unlit s.pulse (d := { s.display with dispOn := true }) rfl hlit i
  case pwroff =>
    exact ⟨_, rfl, State.drive_frame s _ _, fun i => digLevel_of_dispOff _ rfl i, fun j => segLevel_of_dispOff _ rfl j⟩

/-! ### One slot (R163) -/

theorem exec_fillat_of_slot (code : Byte) {index : Byte} (s : State) (h : index.toNat < 5) :
    exec (.fillat code index) s = .next (s.withDisplay (dbufWrite s.display ⟨index.toNat, h⟩ code)) :=
  dif_pos h

theorem exec_fillat_of_no_slot (code : Byte) {index : Byte} (s : State) (h : ¬ index.toNat < 5) :
    exec (.fillat code index) s = .next s :=
  dif_neg h

/-- Settles O31: the write to the slot of the index, read back at that slot and at every other one. -/
theorem fillatWritesOneSlot : Obligations.FillatWritesOneSlot := by
  refine ⟨fun _ _ _ => rfl, fun code index s => ⟨fun habove => ?noSlot, fun hupto => ?slot⟩⟩
  case noSlot => exact exec_fillat_of_no_slot code s (by omega)
  case slot =>
    have hslot : index.toNat < 5 := by omega
    refine ⟨_, exec_fillat_of_slot code s hslot, fun i => ?_, rfl⟩
    split
    case isTrue heq =>
      obtain rfl : i = ⟨index.toNat, hslot⟩ := Fin.ext heq
      exact dbufRead_dbufWrite_self s.display _ code
    case isFalse hne =>
      exact dbufRead_dbufWrite_ne s.display (fun hi => hne (congrArg Fin.val hi)) code

end Sys2Proof.Machine
end

section
/-! PROOFS. The serial receive buffer (42_serial.md): what one reception, FLUSH and the transmit-ready event write, and who may write
HEAD, TAIL and RING. -/

namespace Sys2Proof.Machine

/-! ### A reception (R190) -/

@[simp] theorem ringPush_head (r : Serial) (b : Byte) : (ringPush r b).head = r.head := rfl

@[simp] theorem ringPush_tail (r : Serial) (b : Byte) : (ringPush r b).tail = nextIndex r r.tail := rfl

/-- The cells after a reception: the byte at the old TAIL, every other cell as it was. -/
theorem ringPush_getElem? {r : Serial} (htail : r.tail < ringSize r) (b : Byte) (i : Nat) :
    (ringPush r b).ring[i]? = if i = r.tail then some b else r.ring[i]? := by
  change (r.ring.set r.tail b)[i]? = _
  split
  case isTrue hi => rw [hi, List.getElem?_set_self htail]
  case isFalse hi => rw [List.getElem?_set_ne (Ne.symm hi)]

theorem exec_evRx (b : Byte) (s : State) : exec (.evRx b) s = .next (s.withSerial (ringPush s.serial b)) := rfl

/-- Settles O36: EV_RX is one `ringPush`, read back cell by cell with `ringPush_getElem?`. -/
theorem receptionStoresAtTail : Obligations.ReceptionStoresAtTail := by
  refine ⟨fun _ _ => rfl, fun b s hwf => ⟨_, exec_evRx b s, ?_⟩⟩
  obtain ⟨-, -, -, htail⟩ := hwf
  exact ⟨fun i _ => ringPush_getElem? htail b i, ringSize_ringPush s.serial b, ringPush_tail s.serial b, rfl⟩

/-! ### FLUSH and the transmit-ready event (R194, R195) -/

theorem exec_flush (s : State) : exec .flush s = .next (s.withSerial { s.serial with head := 0, tail := 0 }) := rfl

/-- Settles O41: FLUSH is the two writes of `exec_flush`, whatever the state. -/
theorem flushResetsBothIndices : Obligations.FlushResetsBothIndices :=
  ⟨fun _ => rfl, exec_flush⟩

theorem exec_evTxrdy (level : Byte) (s : State) :
    exec (.evTxrdy level) s = .next (s.withSerial { s.serial with txrdy := readyLevel level }) := rfl

theorem readyLevel_eq_toNat (level : Byte) : readyLevel level = decide (level.toNat ≠ 0) :=
  decide_eq_decide.mpr BitVec.toNat_ne

/-- Settles O42: EV_TXRDY writes `readyLevel` of its operand, which compares the operand's number with 0. -/
theorem transmitReadyFollowsItsEvent : Obligations.TransmitReadyFollowsItsEvent := by
  refine ⟨fun _ _ => rfl, fun level s => ?_⟩
  rw [exec_evTxrdy, readyLevel_eq_toNat]
  rfl

/-! ### Who writes the ring's registers (R197) -/

@[simp] theorem ringPop_tail (r : Serial) : (ringPop r).tail = r.tail := rfl

@[simp] theorem ringPop_ring (r : Serial) : (ringPop r).ring = r.ring := rfl

/-- The registers of the receive buffer after a sub-step: as they were, HEAD advanced by a held read, TXRDY taken by a byte sent. -/
theorem runSub_serial (s : State) :
    (runSub s).serial = s.serial ∨
    (s.port.pending = some .read ∧ (runSub s).serial = ringPop s.serial) ∨
    ((∃ bs, s.port.pending = some (.send bs)) ∧ (runSub s).serial = { s.serial with txrdy := false }) := by
  obtain e | e | ⟨i, c, ws, -, e⟩ | ⟨hread, -, e⟩ | ⟨b, bs, hsend, -, e⟩ := runSub_cases s
  case inl | inr.inl | inr.inr.inl => exact .inl (by simp [e])
  case inr.inr.inr.inl => exact .inr (.inl ⟨hread, congrArg State.serial e⟩)
  case inr.inr.inr.inr => exact .inr (.inr ⟨⟨_, hsend⟩, congrArg State.serial e⟩)

@[simp] theorem runSub_tail (s : State) : (runSub s).serial.tail = s.serial.tail := by
  obtain e | ⟨-, e⟩ | ⟨-, e⟩ := runSub_serial s <;> simp [e]

@[simp] theorem runSub_ring (s : State) : (runSub s).serial.ring = s.serial.ring := by
  obtain e | ⟨-, e⟩ | ⟨-, e⟩ := runSub_serial s <;> simp [e]

theorem runSub_head_of_not_read {s : State} (h : s.port.pending ≠ some .read) : (runSub s).serial.head = s.serial.head := by
  obtain e | ⟨hread, -⟩ | ⟨-, e⟩ := runSub_serial s
  · simp [e]
  · exact absurd hread h
  · simp [e]

theorem acceptCommand_stores_serial (s : State) (ws : List (Fin 5 × Byte)) :
    (acceptCommand s (some (.stores ws))).serial = s.serial := by
  cases ws with
  | nil => rfl
  | cons w ws => rfl

theorem acceptCommand_send_serial (s : State) (bs : List Byte) :
    (acceptCommand s (remaining .send bs)).serial = s.serial ∨
    (acceptCommand s (remaining .send bs)).serial = { s.serial with txrdy := false } := by
  obtain e | ⟨hread, -⟩ | ⟨-, e⟩ := runSub_serial (s.setPending (remaining .send bs))
  · exact .inl e
  · cases bs with
    | nil => cases hread
    | cons b bs => cases hread
  · exact .inr e

theorem acceptCommand_read_serial (s : State) :
    (acceptCommand s (some .read)).serial = s.serial ∨ (acceptCommand s (some .read)).serial = ringPop s.serial := by
  obtain e | ⟨-, e⟩ | ⟨⟨bs, hsend⟩, -⟩ := runSub_serial (s.setPending (some .read))
  · exact .inl e
  · exact .inr e
  · cases hsend

@[simp] theorem arm_serial (s : State) : (arm s).serial = s.serial := by
  unfold arm; split <;> rfl

/-- The registers of the receive buffer after an instruction that answers a next state. -/
theorem exec_serial {i : Instr} {s t : State} (h : exec i s = .next t) :
    t.serial = s.serial ∨
    (i = .rdbyte ∧ t.serial = ringPop s.serial) ∨
    ((∃ p, i = .wrbytes p) ∧ t.serial = { s.serial with txrdy := false }) ∨
    (i = .flush ∧ t.serial = { s.serial with head := 0, tail := 0 }) ∨
    (∃ b, i = .evRx b ∧ t.serial = ringPush s.serial b) ∨
    (∃ l, i = .evTxrdy l ∧ t.serial = { s.serial with txrdy := readyLevel l }) ∨
    (i = .evReset ∧ t.serial = Serial.reset s.free (ringSize s.serial)) := by
  cases i with
  | rdbyte =>
    cases h
    obtain e | e := acceptCommand_read_serial s
    · exact .inl e
    · exact .inr (.inl ⟨rfl, e⟩)
  | wrbytes p =>
    cases h
    obtain e | e := acceptCommand_send_serial s (sentBytes p)
    · exact .inl e
    · exact .inr (.inr (.inl ⟨⟨p, rfl⟩, e⟩))
  | flush => cases h; exact .inr (.inr (.inr (.inl ⟨rfl, rfl⟩)))
  | evRx b => cases h; exact .inr (.inr (.inr (.inr (.inl ⟨b, rfl, rfl⟩))))
  | evTxrdy l => cases h; exact .inr (.inr (.inr (.inr (.inr (.inl ⟨l, rfl, rfl⟩)))))
  | evReset => cases h; exact .inr (.inr (.inr (.inr (.inr (.inr ⟨rfl, rfl⟩)))))
  | arm => cases h; exact .inl (arm_serial s)
  | evTrig => cases h; exact .inl (arm_serial s)
  | setman d w =>
    left
    simp only [exec, execSetman] at h
    split at h
    · split at h <;> cases h
      rfl
    · cases h; rfl
  | setauto =>
    left
    simp only [exec, execSetauto] at h
    split at h <;> cases h
    rfl
  | play v =>
    left
    simp only [exec, execPlay] at h
    split at h <;> cases h
    · rfl
    · exact acceptCommand_stores_serial s _
  | fill c => cases h; exact .inl (acceptCommand_stores_serial s _)
  | fillat c k =>
    left
    simp only [exec, execFillat] at h
    split at h <;> cases h <;> rfl
  | evRefresh =>
    left
    simp only [exec, execEvRefresh] at h
    split at h <;> cases h <;> rfl
  | getstate | getbusy | getdelay | getwidth | getmode | received | setmode | pwron | pwroff | evBase => cases h; exact .inl rfl

theorem exec_head_of_other {i : Instr} {s t : State} (h : exec i s = .next t) (hflush : i ≠ .flush) (hreset : i ≠ .evReset)
    (hread : i ≠ .rdbyte) : t.serial.head = s.serial.head := by
  obtain e | ⟨rfl, -⟩ | ⟨-, e⟩ | ⟨rfl, -⟩ | ⟨b, -, e⟩ | ⟨l, -, e⟩ | ⟨rfl, -⟩ := exec_serial h
  · simp [e]
  · exact absurd rfl hread
  · simp [e]
  · exact absurd rfl hflush
  · simp [e]
  · simp [e]
  · exact absurd rfl hreset

theorem exec_tail_ring_of_other {i : Instr} {s t : State} (h : exec i s = .next t) (hflush : i ≠ .flush) (hreset : i ≠ .evReset)
    (hrx : ∀ b, i ≠ .evRx b) : t.serial.tail = s.serial.tail ∧ t.serial.ring = s.serial.ring := by
  obtain e | ⟨-, e⟩ | ⟨-, e⟩ | ⟨rfl, -⟩ | ⟨b, rfl, -⟩ | ⟨l, -, e⟩ | ⟨rfl, -⟩ := exec_serial h
  · simp [e]
  · simp [e]
  · simp [e]
  · exact absurd rfl hflush
  · exact absurd rfl (hrx b)
  · simp [e]
  · exact absurd rfl hreset

/-- Settles O46: the sub-steps by `runSub_serial`, the instructions by `exec_serial`; RECEIVED and FLUSH by their own answers. -/
theorem ringIndicesHaveOneWriterEach : Obligations.RingIndicesHaveOneWriterEach := by
  refine ⟨fun s => ⟨runSub_tail s, runSub_ring s, runSub_head_of_not_read⟩, fun i s t h => ⟨?others, ?received, ?flush⟩⟩
  case others =>
    exact fun hflush hreset => ⟨exec_head_of_other h hflush hreset, exec_tail_ring_of_other h hflush hreset⟩
  case received =>
    rintro rfl
    cases h
    rfl
  case flush =>
    rintro rfl
    cases h
    exact ⟨rfl, rfl, rfl⟩

end Sys2Proof.Machine
end

section
/-! PROOFS. The decoder, the command port's decoder and the splitter (30_encoding.md R91 to R107): what each reads from an
encoding, what it reserves, and the statements about encodings. -/

namespace Sys2Proof

open Machine

/-! ### Each operand format reads its own bytes back -/

theorem decodeW_le32Bytes (f : Word → Instr) (a : Word) (rest : List Byte) :
    decodeW f (le32Bytes a ++ rest) = .ok (f a) rest := by
  simp [le32Bytes, decodeW]

theorem decodeWW_le32Bytes (f : Word → Word → Instr) (a b : Word) (rest : List Byte) :
    decodeWW f (le32Bytes a ++ (le32Bytes b ++ rest)) = .ok (f a b) rest := by
  simp [le32Bytes, decodeWW]

theorem decodeS_payload (f : List Byte → Instr) {p : List Byte} (rest : List Byte) (h : payloadOk p = true) :
    decodeS f (p ++ Config.term :: rest) = .ok (f p) rest := by
  simp [decodeS, splitTerm_payload rest h]

/-! ### Round trip (R99) -/

/-- Settles O1: the three formats with more than one shape of operand by their own lemmas, every other row of the table by
computation. -/
theorem decodeReadsBackEveryEncoding : Obligations.DecodeReadsBackEveryEncoding := by
  intro i rest hwf
  cases i with
  | setman delay width =>
    rw [encode, List.cons_append, List.append_assoc]
    exact decodeWW_le32Bytes .setman delay width rest
  | play value => exact decodeW_le32Bytes .play value rest
  | wrbytes payload =>
    rw [encode, List.cons_append, List.append_assoc]
    exact decodeS_payload .wrbytes rest hwf
  | arm | setauto | getstate | getbusy | getdelay | getwidth | setmode | getmode | pwron | pwroff | fill | fillat | received
  | rdbyte | flush | evTrig | evBase | evRefresh | evRx | evTxrdy | evReset => rfl

theorem eq_ofNat_of_toNat {code : Byte} {n : Nat} (h : code.toNat = n) : code = BitVec.ofNat 8 n := by
  rw [← h, BitVec.ofNat_toNat, BitVec.setWidth_eq]

/-- What a command code decodes to: a well-formed command, and the bytes are its encoding. -/
theorem decodeCommandCode_ok {code : Byte} {bs rest : List Byte} {i : Instr} (h : decodeCommandCode code bs = .ok i rest) :
    i.wf = true ∧ code :: bs = encode i ++ rest := by
  unfold decodeCommandCode at h
  split at h
  case h_2 hc =>
    obtain ⟨a, b, rfl, rfl⟩ := decodeWW_ok h
    exact ⟨rfl, by rw [eq_ofNat_of_toNat hc, encode, List.cons_append, List.append_assoc]; rfl⟩
  case h_12 hc =>
    obtain ⟨a, rfl, rfl⟩ := decodeW_ok h
    exact ⟨rfl, by rw [eq_ofNat_of_toNat hc]; rfl⟩
  case h_14 hc =>
    obtain ⟨a, b, rfl, rfl⟩ := decodeBB_ok h
    exact ⟨rfl, by rw [eq_ofNat_of_toNat hc]; rfl⟩
  case h_17 hc =>
    obtain ⟨p, rfl, hp, rfl⟩ := decodeS_ok h
    exact ⟨hp, by rw [eq_ofNat_of_toNat hc, encode, List.cons_append, List.append_assoc]; rfl⟩
  case h_8 hc | h_13 hc =>
    obtain ⟨a, rfl, rfl⟩ := decodeB_ok h
    exact ⟨rfl, by rw [eq_ofNat_of_toNat hc]; rfl⟩
  case h_19 => cases h
  all_goals
    cases h
    rename_i hc
    exact ⟨rfl, by rw [eq_ofNat_of_toNat hc]; rfl⟩

/-- Settles O2: the event codes here, the command codes by `decodeCommandCode_ok`. -/
theorem everyDecodedItemIsItsEncoding : Obligations.EveryDecodedItemIsItsEncoding := by
  intro bs i rest h
  cases bs with
  | nil => cases h
  | cons code bs =>
    rw [decode] at h
    unfold decodeCode at h
    split at h
    case h_7 => exact decodeCommandCode_ok h
    case h_4 hc | h_5 hc =>
      obtain ⟨a, rfl, rfl⟩ := decodeB_ok h
      exact ⟨rfl, by rw [eq_ofNat_of_toNat hc]; rfl⟩
    all_goals
      cases h
      rename_i hc
      exact ⟨rfl, by rw [eq_ofNat_of_toNat hc]; rfl⟩

/-! ### The codes each decoder reserves (R96, R103) -/

/-- Every instruction's first byte, from the lemma of each row. -/
theorem opcodeByte : ∀ i : Instr, Laws.OpcodeByte.Statement i
  | .arm => Laws.OpcodeByte.arm
  | .setman delay width => Laws.OpcodeByte.setman delay width
  | .setauto => Laws.OpcodeByte.setauto
  | .getstate => Laws.OpcodeByte.getstate
  | .getbusy => Laws.OpcodeByte.getbusy
  | .getdelay => Laws.OpcodeByte.getdelay
  | .getwidth => Laws.OpcodeByte.getwidth
  | .setmode mode => Laws.OpcodeByte.setmode mode
  | .getmode => Laws.OpcodeByte.getmode
  | .pwron => Laws.OpcodeByte.pwron
  | .pwroff => Laws.OpcodeByte.pwroff
  | .play value => Laws.OpcodeByte.play value
  | .fill code => Laws.OpcodeByte.fill code
  | .fillat code index => Laws.OpcodeByte.fillat code index
  | .received => Laws.OpcodeByte.received
  | .rdbyte => Laws.OpcodeByte.rdbyte
  | .wrbytes payload => Laws.OpcodeByte.wrbytes payload
  | .flush => Laws.OpcodeByte.flush
  | .evTrig => Laws.OpcodeByte.evTrig
  | .evBase => Laws.OpcodeByte.evBase
  | .evRefresh => Laws.OpcodeByte.evRefresh
  | .evRx b => Laws.OpcodeByte.evRx b
  | .evTxrdy level => Laws.OpcodeByte.evTxrdy level
  | .evReset => Laws.OpcodeByte.evReset

theorem getLsbD_seven_iff (code : Byte) : code.getLsbD 7 = true ↔ 0x80 ≤ code.toNat := by
  have hmsb : code.msb = code.getLsbD 7 := BitVec.msb_eq_getLsbD_last code
  rw [← hmsb, BitVec.msb_eq_decide]
  simp

/-- Below the event codes the trace's decoder is the port's. -/
theorem decode_eq_decodePort {code : Byte} (bs : List Byte) (h : code.toNat < 0x80) :
    decode (code :: bs) = decodePort (code :: bs) := by
  rw [decode, decodePort, decodeCode]
  split
  case h_7 => rfl
  all_goals omega

/-- Settles O3: the top bit of the first byte parts commands from events; a command is read by the trace's decoder, an event code is
reserved on the port. -/
theorem portCarriesCommandsOnly : Obligations.PortCarriesCommandsOnly := by
  intro i rest hwf
  obtain ⟨code, operands, henc, -, htop, -⟩ := opcodeByte i
  rw [getLsbD_seven_iff] at htop
  refine ⟨fun hcommand => ?command, fun hevent => ⟨code, by rw [henc]; rfl, ?event⟩⟩
  case command =>
    have hlow : code.toNat < 0x80 := by
      rw [← Nat.not_le, ← htop, hcommand]
      exact Bool.false_ne_true
    rw [← decodeReadsBackEveryEncoding i rest hwf, henc, List.cons_append, decode_eq_decodePort _ hlow]
  case event =>
    rw [henc, List.cons_append]
    exact decodePort_of_reserved _ (.inr (htop.mp hevent))

/-- The command port reserves nothing but unassigned and event codes. -/
theorem reserved_of_decodePort {code c : Byte} {bs : List Byte} (h : decodePort (code :: bs) = .reserved c) :
    assignedCode code = false ∨ 0x80 ≤ code.toNat := by
  simp only [decodePort, decodeCommandCode, decodeB, decodeBB, decodeW, decodeWW, decodeS] at h
  split at h
  case h_19 =>
    simp only [imp_false] at *
    simp only [assignedCode, Bool.or_eq_false_iff, Bool.and_eq_false_iff, decide_eq_false_iff_not]
    omega
  all_goals
    repeat' split at h
    all_goals cases h

/-- A trace's decoder reserves nothing but unassigned codes. -/
theorem unassigned_of_decode {code c : Byte} {bs : List Byte} (h : decode (code :: bs) = .reserved c) :
    assignedCode code = false := by
  by_cases hlow : code.toNat < 0x80
  · rw [decode_eq_decodePort bs hlow] at h
    exact (reserved_of_decodePort h).resolve_right (by omega)
  · simp only [decode, decodeCode, decodeB] at h
    split at h
    case h_7 =>
      simp only [imp_false] at *
      simp only [assignedCode, Bool.or_eq_false_iff, Bool.and_eq_false_iff, decide_eq_false_iff_not]
      omega
    all_goals
      repeat' split at h
      all_goals cases h

/-- Settles O4: each word is computed by the decoder. -/
theorem specExampleWordsDecode : Obligations.SpecExampleWordsDecode :=
  ⟨rfl, rfl, rfl, rfl, rfl, rfl, rfl⟩

/-! ### Beginnings of commands (R97) -/

theorem encode_of_decodePort_ok {bs rest : List Byte} {i : Instr} (h : decodePort bs = .ok i rest) :
    i.wf = true ∧ bs = encode i ++ rest := by
  cases bs with
  | nil => cases h
  | cons code bs => exact decodeCommandCode_ok h

theorem isEvent_of_decodePort_ok {bs rest : List Byte} {i : Instr} (h : decodePort bs = .ok i rest) : i.isEvent = false := by
  obtain ⟨hwf, rfl⟩ := encode_of_decodePort_ok h
  by_contra hevent
  obtain ⟨c, -, hc⟩ := (portCarriesCommandsOnly i rest hwf).2 (by simpa using hevent)
  rw [hc] at h
  cases h

/-- Settles O6: were the beginning a command, the whole would decode to that command with bytes left over; were it reserved, so would
be the whole. -/
theorem beginningOfCommandIsIncomplete : Obligations.BeginningOfCommandIsIncomplete := by
  intro i p q hwf hcommand henc hq
  have hwhole : decodePort (p ++ q) = .ok i [] := by
    rw [← henc, ← List.append_nil (encode i)]
    exact (portCarriesCommandsOnly i [] hwf).1 hcommand
  cases hp : decodePort p with
  | incomplete => rfl
  | ok j rest =>
    obtain ⟨hj, rfl⟩ := encode_of_decodePort_ok hp
    rw [List.append_assoc, (portCarriesCommandsOnly j _ hj).1 (isEvent_of_decodePort_ok hp)] at hwhole
    exact absurd (List.append_eq_nil_iff.mp (Decoded.ok.inj hwhole).2).2 hq
  | reserved c =>
    cases p with
    | nil => cases hp
    | cons code p =>
      rw [List.cons_append, decodePort_of_reserved _ (reserved_of_decodePort hp)] at hwhole
      cases hwhole

/-! ### Splitting a trace into items (R107) -/

/-- Only the last item of a legal split is incomplete, so an item of another kind may stand before one. -/
theorem legalSplit_cons {it : Item} {items : List Item} (hit : legalItem it = true) (hkind : ∀ r, it ≠ .incomplete r)
    (h : LegalSplit items) : LegalSplit (it :: items) := by
  obtain ⟨hlegal, hlast⟩ := h
  refine ⟨List.forall_mem_cons.mpr ⟨hit, hlegal⟩, fun k r hk => ?_⟩
  cases k with
  | zero => exact absurd (Option.some.inj hk) (hkind r)
  | succ k => exact congrArg (· + 1) (hlast k r hk)

theorem legalSplit_singleton {it : Item} (h : legalItem it = true) : LegalSplit [it] := by
  refine ⟨List.forall_mem_singleton.mpr h, fun k r hk => ?_⟩
  cases k with
  | zero => rfl
  | succ k => cases hk

/-- The splitter's items are legal and spell the bytes. -/
theorem splitItems_spec (fuel : Nat) (bs : List Byte) (hfuel : bs.length ≤ fuel) :
    LegalSplit (splitItems fuel bs) ∧ (splitItems fuel bs).flatMap Item.bytes = bs := by
  have hnil : LegalSplit [] := ⟨fun it hit => (List.not_mem_nil hit).elim, fun k r hk => nomatch hk⟩
  induction fuel generalizing bs with
  | zero =>
    obtain rfl : bs = [] := List.length_eq_zero_iff.mp (Nat.le_zero.mp hfuel)
    exact ⟨hnil, rfl⟩
  | succ fuel ih =>
    cases bs with
    | nil => exact ⟨hnil, rfl⟩
    | cons b bs =>
      rw [splitItems]
      split
      case h_1 i rest hdec =>
        obtain ⟨hwf, henc⟩ := everyDecodedItemIsItsEncoding _ i rest hdec
        have hlen : rest.length ≤ fuel := by
          have hpos : 0 < (encode i).length := List.length_pos_iff.mpr (encode_ne_nil i)
          have := congrArg List.length henc
          simp only [List.length_cons, List.length_append] at this hfuel
          omega
        obtain ⟨hlegal, hbytes⟩ := ih rest hlen
        exact ⟨legalSplit_cons hwf (fun _ hi => nomatch hi) hlegal, by rw [List.flatMap_cons, hbytes, henc]; rfl⟩
      case h_2 code hdec =>
        obtain rfl : code = b := decodeCode_reserved hdec
        obtain ⟨hlegal, hbytes⟩ := ih bs (Nat.le_of_succ_le_succ hfuel)
        refine ⟨legalSplit_cons ?_ (fun _ hi => nomatch hi) hlegal, by rw [List.flatMap_cons, hbytes]; rfl⟩
        simp [legalItem, unassigned_of_decode hdec]
      case h_3 hdec =>
        exact ⟨legalSplit_singleton (by simp [legalItem, hdec]), List.flatMap_singleton _ _⟩

theorem splitItems_of_ok {bs rest : List Byte} {i : Instr} (fuel : Nat) (h : decode bs = .ok i rest) :
    splitItems (fuel + 1) bs = .instr i :: splitItems fuel rest := by
  cases bs with
  | nil => cases h
  | cons b bs => simp only [splitItems, h]

theorem splitItems_of_incomplete {bs : List Byte} (fuel : Nat) (hne : bs ≠ []) (h : decode bs = .incomplete) :
    splitItems (fuel + 1) bs = [.incomplete bs] := by
  cases bs with
  | nil => exact absurd rfl hne
  | cons b bs => simp only [splitItems, h]

/-- A legal item spells at least one byte. -/
theorem item_bytes_ne_nil {it : Item} (h : legalItem it = true) : it.bytes ≠ [] := by
  cases it with
  | instr i => exact encode_ne_nil i
  | reserved code => exact List.cons_ne_nil code []
  | incomplete r =>
    rintro rfl
    cases h

/-- A legal list of items is what the splitter makes of its bytes. -/
theorem splitItems_of_legal (items : List Item) (h : LegalSplit items) (fuel : Nat)
    (hfuel : (items.flatMap Item.bytes).length ≤ fuel) : splitItems fuel (items.flatMap Item.bytes) = items := by
  induction items generalizing fuel with
  | nil => cases fuel <;> rfl
  | cons it items ih =>
    have hit := h.1 it List.mem_cons_self
    have hpos := List.length_pos_iff.mpr (item_bytes_ne_nil hit)
    rw [List.flatMap_cons] at hfuel ⊢
    rw [List.length_append] at hfuel
    obtain ⟨fuel, rfl⟩ := Nat.exists_eq_add_one.mpr (show 0 < fuel by omega)
    have hitems := ih (legalSplit_tail h) fuel (by omega)
    cases it with
    | instr i => rw [Item.bytes, splitItems_of_ok fuel (decodeReadsBackEveryEncoding i _ hit), hitems]
    | reserved code =>
      have hdec := decode_of_unassigned (items.flatMap Item.bytes) (by simpa [legalItem] using hit)
      simp only [Item.bytes, List.singleton_append, splitItems, hdec, hitems]
    | incomplete r =>
      obtain rfl : items = [] := by simpa using (h.2 0 r rfl).symm
      obtain ⟨hne, hdec⟩ : r ≠ [] ∧ decode r = .incomplete := by simpa [legalItem] using hit
      rw [List.flatMap_nil, List.append_nil]
      exact splitItems_of_incomplete fuel hne hdec

/-- Settles O5: the items are legal and spell the bytes (`splitItems_spec`), a legal split is the splitter's (`splitItems_of_legal`),
and at an instruction item the decoder reads that item's encoding (O1). -/
theorem traceSplitsIntoItems : Obligations.TraceSplitsIntoItems := by
  intro bs
  obtain ⟨hlegal, hbytes⟩ := splitItems_spec bs.length bs le_rfl
  refine ⟨hlegal, hbytes, fun k i hk => ?decoded, fun items hitems hspell => ?unique⟩
  case decoded =>
    obtain ⟨hlt, hget⟩ := List.getElem?_eq_some_iff.mp hk
    rw [List.drop_eq_getElem_cons hlt, hget, List.flatMap_cons]
    exact decodeReadsBackEveryEncoding i _ (hlegal.1 _ (List.mem_of_getElem? hk))
  case unique =>
    subst hspell
    exact (splitItems_of_legal items hitems _ le_rfl).symm

end Sys2Proof
end

section
/-! PROOFS. One step of the machine (30_encoding.md R90, R96, R97, R104): what each turn answers, case by case, the statements about
the step, and the assembler's table (R101, R102). -/

namespace Sys2Proof.Machine

/-! ### What each turn answers -/

theorem step_of_no_turn {s : State} (h : s.stim.turns = []) : step s = stepInOrder s := by
  simp only [step, h]

theorem step_of_item {s : State} {ts : List Turn} (h : s.stim.turns = .item :: ts) : step s = stepItem (s.withTurns ts) := by
  simp only [step, h]

theorem step_of_command {s : State} {ts : List Turn} (h : s.stim.turns = .command :: ts) :
    step s = .next (runSub (s.withTurns ts)) := by
  simp only [step, h]

theorem step_of_portByte {s : State} {ts : List Turn} (h : s.stim.turns = .portByte :: ts) :
    step s = stepPortByte (s.withTurns ts) := by
  simp only [step, h]

theorem stepInOrder_of_subReady {s : State} (h : subReady s = true) : stepInOrder s = .next (runSub s) := if_pos h

theorem stepInOrder_of_not_subReady {s : State} (h : subReady s = false) : stepInOrder s = stepItem s := by
  simp [stepInOrder, h]

theorem stepItem_of_ok {s : State} {i : Instr} {rest : List Byte} (h : decode s.stim.trace = .ok i rest)
    (hmay : i.isEvent = true ∨ hostFree s = true) : stepItem s = exec i (s.withTrace rest) := by
  simp only [stepItem, h, Bool.or_eq_true, if_pos hmay]

theorem stepItem_of_command_inside {s : State} {i : Instr} {rest : List Byte} (h : decode s.stim.trace = .ok i rest)
    (hcommand : i.isEvent = false) (hinside : hostFree s = false) : stepItem s = .refused (.commandWhilePending i) := by
  simp [stepItem, h, hcommand, hinside]

theorem stepItem_of_reserved {s : State} {code : Byte} (h : decode s.stim.trace = .reserved code) :
    stepItem s = .refused (.reservedCode code) := by
  simp only [stepItem, h]

theorem stepItem_of_incomplete {s : State} (h : decode s.stim.trace = .incomplete) : stepItem s = .next s := by
  simp only [stepItem, h]

/-- A sub-step that is not enabled changes nothing. -/
theorem runSub_of_not_subReady {s : State} (h : subReady s = false) : runSub s = s := by
  unfold subReady at h
  unfold runSub
  split at h
  case h_1 hp => simp only [hp]
  case h_3 hp => simp [hp, h]
  case h_5 hp => simp [hp, h]
  all_goals cases h

/-! ### The statements about the step -/

/-- Settles O7: an unassigned code is reserved by the decoder (`decode_of_unassigned`), and no other (`unassigned_of_decode`). -/
theorem reservedCodesAreRefused : Obligations.ReservedCodesAreRefused := by
  intro s code bs htrace hturns hready
  rw [htrace]
  refine ⟨fun hcode => ?_, fun hcode c hc => ?_⟩
  · rw [step_of_no_turn hturns, stepInOrder_of_not_subReady hready]
    exact stepItem_of_reserved (by rw [htrace, decode_of_unassigned bs hcode])
  · rw [unassigned_of_decode hc] at hcode
    cases hcode

/-- Settles O8: both ways to the trace's item end in `stepItem_of_ok`. -/
theorem stepRunsTheDecodedInstruction : Obligations.StepRunsTheDecodedInstruction := by
  intro s i rest hdec hmay
  refine ⟨fun hturns hready => ?_, fun ts hturns => ?_⟩
  · rw [step_of_no_turn hturns, stepInOrder_of_not_subReady hready, stepItem_of_ok hdec hmay, ← hturns]
    rfl
  · rw [step_of_item hturns, stepItem_of_ok (s := s.withTurns ts) hdec hmay]
    rfl

/-- A table word that decodes spells the encoding of a well-formed instruction. -/
theorem tableWordBytes_of_decode {nbits w : Nat} {i : Instr} (h : decodeTableWord nbits w = some i) :
    i.wf = true ∧ tableWordBytes nbits w = encode i := by
  refine ⟨?_, by rw [tableWordBytes, h]⟩
  unfold decodeTableWord at h
  split at h <;> cases h
  exact (everyDecodedItemIsItsEncoding _ i _ ‹_›).1

/-- Settles O9: the placed bytes decode to the instruction (O1), and the turn `item` runs it (O8). -/
theorem stepRunsThePlacedInstruction : Obligations.StepRunsThePlacedInstruction := by
  intro s nbits w i hword
  obtain ⟨hwf, hbytes⟩ := tableWordBytes_of_decode hword
  have hdec : decode (s.withFetchWord nbits w).stim.trace = .ok i s.stim.trace := by
    rw [State.withFetchWord, State.withStim_stim, hbytes]
    exact decodeReadsBackEveryEncoding i s.stim.trace hwf
  exact (stepRunsTheDecodedInstruction _ i _ hdec (.inr rfl)).2 s.stim.turns rfl

/-- Settles O10: in trace order the item is `stepItem`'s, which refuses a command inside a command. -/
theorem commandInsideCommandIsRefused : Obligations.CommandInsideCommandIsRefused := by
  intro s i rest hdec hcommand hinside hturns hready
  rw [step_of_no_turn hturns, stepInOrder_of_not_subReady hready, stepItem_of_command_inside hdec hcommand hinside]

/-- Settles O11: the turns' equations; a sub-step not enabled is `runSub_of_not_subReady`. -/
theorem pendingSubStepComesFirst : Obligations.PendingSubStepComesFirst := by
  refine fun s => ⟨fun hturns hready => ?_, fun ts hturns => step_of_command hturns, fun hturns hready hdec => ?_,
    runSub_of_not_subReady⟩
  · rw [step_of_no_turn hturns, stepInOrder_of_subReady hready]
  · rw [step_of_no_turn hturns, stepInOrder_of_not_subReady hready, stepItem_of_incomplete hdec]

section PortByte

variable {s : State} {b : Byte} {rest : List Byte}

theorem stepPortByte_of_pending (htrace : s.stim.trace = b :: rest) (hpending : s.port.pending ≠ none) :
    stepPortByte s = .next s := by
  simp only [stepPortByte, htrace, if_pos (Option.isSome_iff_ne_none.mpr hpending)]

theorem stepPortByte_of_ok {i : Instr} {r : List Byte} (htrace : s.stim.trace = b :: rest) (hpending : s.port.pending = none)
    (hdec : decodePort (s.port.accepted ++ [b]) = .ok i r) :
    stepPortByte s = exec i ((s.withTrace rest).withPort ⟨[], none⟩) := by
  simp only [stepPortByte, htrace, hpending, hdec]
  rfl

theorem stepPortByte_of_reserved {code : Byte} (htrace : s.stim.trace = b :: rest) (hpending : s.port.pending = none)
    (hdec : decodePort (s.port.accepted ++ [b]) = .reserved code) : stepPortByte s = .refused (.reservedCode code) := by
  simp [stepPortByte, htrace, hpending, hdec]

theorem stepPortByte_of_incomplete (htrace : s.stim.trace = b :: rest) (hpending : s.port.pending = none)
    (hdec : decodePort (s.port.accepted ++ [b]) = .incomplete) :
    stepPortByte s = .next ((s.withTrace rest).withPort ⟨s.port.accepted ++ [b], none⟩) := by
  simp only [stepPortByte, htrace, hpending, hdec]
  rfl

end PortByte

/-- Settles O12: a command in progress lets the byte wait; else the port's decoder on the accepted bytes and this one decides. -/
theorem commandTakesEffectAtItsLastByte : Obligations.CommandTakesEffectAtItsLastByte := by
  intro s b rest ts hstim
  have hstep : step s = stepPortByte (s.withTurns ts) := step_of_portByte (by rw [hstim])
  have htrace : (s.withTurns ts).stim.trace = b :: rest := by rw [State.withTurns_stim, hstim]
  rw [hstep]
  refine ⟨fun hnone hdec => ?incomplete, fun hnone i r hdec => ?complete, fun hnone hempty hcode => ?reserved,
    fun hsome => ?waits⟩
  case incomplete => exact stepPortByte_of_incomplete htrace hnone hdec
  case complete => exact stepPortByte_of_ok htrace hnone hdec
  case reserved =>
    refine stepPortByte_of_reserved htrace hnone ?_
    rw [State.withTurns_port, hempty, List.nil_append, decodePort_of_reserved [] hcode]
  case waits => rw [stepPortByte_of_pending htrace hsome, State.withTurns, State.withStim, hstim]

/-! ### The assembler's table (R101, R102) -/

/-- Settles O13: each text is computed by the assembler. -/
theorem assemblerGivesTheSpecBytes : Obligations.AssemblerGivesTheSpecBytes :=
  ⟨by decide, by decide, by decide, by decide, by decide, by decide, by decide, by decide, by decide, by decide, by decide⟩

end Sys2Proof.Machine
end

section
/-! PROOFS. What an instruction can do to the state as a whole, said once (`Effect`), and the statements about frames, stops, responses
and the log of pins that follow from it. -/

namespace Sys2Proof.Machine

/-! ### The kinds of change an instruction makes -/

/-- The four sub-steps of a refresh that is not lost (R167). -/
def refreshed (s : State) : State :=
  refreshStep refreshActivate (refreshStep refreshLatch (refreshStep refreshAdvance (refreshStep refreshDeactivate s)))

theorem exec_evRefresh_of_on {s : State} (h : s.display.dispOn = true) : exec .evRefresh s = .next (refreshed s) := if_pos h

theorem exec_evRefresh_of_off {s : State} (h : s.display.dispOn = false) : exec .evRefresh s = .next s := by
  simp [exec, execEvRefresh, h]

theorem exec_play_of_lt {value : Word} (s : State) (h : value.toNat < 100000) :
    exec (.play value) s = .next (acceptCommand s (some (.stores (playStores s.tables value)))) :=
  if_neg (Nat.not_le.mpr h)

theorem exec_play_of_ge {value : Word} (s : State) (h : 100000 ≤ value.toNat) : exec (.play value) s = .next s := if_pos h

/-- The changes an instruction can make, with the instructions that make each; `exec_effect` ties it to `exec`. -/
inductive Effect (s : State) : Instr → State → Prop
  | none {i : Instr} : Effect s i s
  | pulse {i : Instr} (p : Pulse) (hblock : blockOf i = .pulse) (hout : p.out = s.pulse.out) : Effect s i (s.withPulse p)
  | answer {i : Instr} (v : Word)
      (hquery : i = .getstate ∨ i = .getbusy ∨ i = .getdelay ∨ i = .getwidth ∨ i = .getmode ∨ i = .received) :
      Effect s i (s.respond v)
  | edge : Effect s .evBase (s.drive (baseRegs s.pulse) s.display)
  | on : Effect s .pwron (s.drive s.pulse { s.display with dispOn := true })
  | off : Effect s .pwroff (s.drive s.pulse { s.display with lit := false, dispOn := false })
  | refresh (hon : s.display.dispOn = true) : Effect s .evRefresh (refreshed s)
  | slot (code index : Byte) (k : Fin 5) : Effect s (.fillat code index) (s.withDisplay (dbufWrite s.display k code))
  | stores {i : Instr} (ws : List (Fin 5 × Byte)) (hblock : blockOf i = .display) (hcommand : i.isEvent = false)
      (hlive : (Pending.stores ws).live = true) : Effect s i (acceptCommand s (some (.stores ws)))
  | read : Effect s .rdbyte (acceptCommand s (some .read))
  | send (p : List Byte) : Effect s (.wrbytes p) (acceptCommand s (remaining .send (sentBytes p)))
  | serial {i : Instr} (r : Serial) (hblock : blockOf i = .serial) : Effect s i (s.withSerial r)
  | reset : Effect s .evReset
      { s.drive Pulse.reset Display.reset with
        serial := Serial.reset s.free (ringSize s.serial), port := Port.reset, free := s.free + 1 }

theorem loadManual_out (p : Pulse) (delay width : Word) : (loadManual p delay width).out = p.out := by
  simp only [loadManual]
  split <;> rfl

theorem effect_arm (s : State) {i : Instr} (hi : blockOf i = .pulse) : Effect s i (arm s) := by
  unfold arm
  split
  · exact .none
  · exact .pulse _ hi rfl

theorem exec_effect {i : Instr} {s t : State} (h : exec i s = .next t) : Effect s i t := by
  cases i with
  | arm => cases h; exact effect_arm s rfl
  | evTrig => cases h; exact effect_arm s rfl
  | setman delay width =>
    simp only [exec, execSetman] at h
    split at h
    · split at h <;> cases h
      exact .pulse _ rfl (loadManual_out s.pulse delay width)
    · cases h; exact .none
  | setauto =>
    simp only [exec, execSetauto] at h
    split at h <;> cases h
    exact .pulse _ rfl rfl
  | setmode mode => cases h; exact .pulse _ rfl rfl
  | evBase => cases h; exact .edge
  | getstate => cases h; exact .answer _ (by simp)
  | getbusy => cases h; exact .answer _ (by simp)
  | getdelay => cases h; exact .answer _ (by simp)
  | getwidth => cases h; exact .answer _ (by simp)
  | getmode => cases h; exact .answer _ (by simp)
  | received => cases h; exact .answer _ (by simp)
  | pwron => cases h; exact .on
  | pwroff => cases h; exact .off
  | play value =>
    simp only [exec, execPlay] at h
    split at h <;> cases h
    · exact .none
    · exact .stores _ rfl rfl rfl
  | fill code => cases h; exact .stores _ rfl rfl rfl
  | fillat code index =>
    simp only [exec, execFillat] at h
    split at h <;> cases h
    · exact .slot code index _
    · exact .none
  | evRefresh =>
    simp only [exec, execEvRefresh] at h
    split at h <;> cases h
    · exact .refresh ‹_›
    · exact .none
  | rdbyte => cases h; exact .read
  | wrbytes payload => cases h; exact .send payload
  | flush => cases h; exact .serial _ rfl
  | evRx b => cases h; exact .serial _ rfl
  | evTxrdy level => cases h; exact .serial _ rfl
  | evReset => cases h; exact .reset

theorem exec_tables {i : Instr} {s t : State} (h : exec i s = .next t) : t.tables = s.tables := by
  obtain ⟨htables, -, -, -⟩ := exec_fixed h
  exact htables

theorem exec_ringSize {i : Instr} {s t : State} (h : exec i s = .next t) : ringSize t.serial = ringSize s.serial := by
  obtain ⟨-, -, -, hsize⟩ := exec_fixed h
  exact hsize

/-! ### The pins of a display that is on (R50, R51) -/

theorem pinsOf_of_on (p : Pulse) {d : Display} (hon : d.dispOn = true) : pinsOf p d = ⟨p.out, some (digLines d, d.seglatch)⟩ := by
  rw [pinsOf, if_pos hon]

theorem digLines_of_lit {d : Display} (h : d.lit = true) : digLines d = BitVec.twoPow 5 d.cursor.val := if_pos h

theorem digLines_of_unlit {d : Display} (h : d.lit = false) : digLines d = 0 := by simp [digLines, h]

/-- A lit digit drives its line. -/
theorem digLine_ne_zero (c : Fin 5) : BitVec.twoPow 5 c.val ≠ 0#5 := by
  revert c
  decide

/-! ### Sub-steps, field by field -/

theorem runSub_display_of_not_stores {s : State} (h : ∀ ws, s.port.pending ≠ some (.stores ws)) :
    (runSub s).display = s.display := by
  obtain e | e | ⟨i, c, ws, hstores, -⟩ | ⟨-, -, e⟩ | ⟨b, bs, -, -, e⟩ := runSub_cases s
  case inr.inr.inl => exact absurd hstores (h _)
  all_goals simp [e]

theorem runSub_resp (s : State) :
    (runSub s).seen.resp = s.seen.resp ∨
    (s.port.pending = some .read ∧ ∃ v, (runSub s).seen.resp = s.seen.resp ++ [v]) := by
  obtain e | e | ⟨i, c, ws, -, e⟩ | ⟨hread, -, e⟩ | ⟨b, bs, -, -, e⟩ := runSub_cases s
  case inr.inr.inr.inl => exact .inr ⟨hread, _, by rw [e]; rfl⟩
  all_goals exact .inl (by simp [e])

theorem runSub_tx (s : State) :
    (runSub s).seen.tx = s.seen.tx ∨
    ∃ b bs, s.port.pending = some (.send (b :: bs)) ∧ (runSub s).seen.tx = s.seen.tx ++ [b] := by
  obtain e | e | ⟨i, c, ws, -, e⟩ | ⟨-, -, e⟩ | ⟨b, bs, hsend, -, e⟩ := runSub_cases s
  case inr.inr.inr.inr => exact .inr ⟨b, bs, hsend, by rw [e]; rfl⟩
  all_goals exact .inl (by simp [e])

@[simp] theorem pinsOf_dbufWrite (p : Pulse) (d : Display) (i : Fin 5) (c : Byte) : pinsOf p (dbufWrite d i c) = pinsOf p d := rfl

/-! ### Accepted commands, field by field -/

theorem acceptCommand_pulse (s : State) (c : Option Pending) : (acceptCommand s c).pulse = s.pulse :=
  runSub_pulse _

theorem acceptCommand_pinLog (s : State) (c : Option Pending) : (acceptCommand s c).seen.pins = s.seen.pins :=
  runSub_pinLog _

theorem acceptCommand_pins (s : State) (c : Option Pending) : (acceptCommand s c).pins = s.pins := by
  rw [State.pins_eq, acceptCommand_pulse]
  exact runSub_pinsOf _ _

theorem acceptCommand_display_of_not_stores (s : State) {c : Option Pending} (h : ∀ ws, c ≠ some (.stores ws)) :
    (acceptCommand s c).display = s.display :=
  runSub_display_of_not_stores (s := s.setPending c) h

theorem remaining_send_ne_stores (bs : List Byte) (ws : List (Fin 5 × Byte)) : remaining .send bs ≠ some (.stores ws) := by
  cases bs <;> simp [remaining]

theorem remaining_send_ne_read (bs : List Byte) : remaining .send bs ≠ some .read := by
  cases bs <;> simp [remaining]

/-! ### The statements -/

/-- Settles O53: by the kind of change. -/
theorem subBlocksShareNothing : Obligations.SubBlocksShareNothing := by
  intro i s t h
  cases exec_effect h with
  | none => simp
  | pulse p hblock => simp [hblock]
  | answer => simp
  | edge => simp [blockOf]
  | on => simp [blockOf]
  | off => simp [blockOf]
  | refresh => simp [blockOf, refreshed, refreshStep]
  | slot => simp [blockOf]
  | stores ws hblock => simp [hblock, acceptCommand_pulse, acceptCommand_stores_serial]
  | read => simp [blockOf, acceptCommand_pulse, acceptCommand_display_of_not_stores]
  | send => simp [blockOf, acceptCommand_pulse, acceptCommand_display_of_not_stores, remaining_send_ne_stores]
  | serial r hblock => simp [hblock]
  | reset => simp [blockOf]

/-- Settles O54: an instruction that drives the pins logs by `State.drive_pins`; every other one leaves them and their log alone. -/
theorem pinLogFollowsEveryChange : Obligations.PinLogFollowsEveryChange := by
  intro i s t h hrefresh
  cases exec_effect h with
  | refresh => exact absurd rfl hrefresh
  | edge => exact State.drive_pins s _ _
  | on => exact State.drive_pins s _ _
  | off => exact State.drive_pins s _ _
  | reset => exact State.drive_pins s _ _
  | none => simp
  | pulse p hblock hout => simp [pinsOf_eq_of_out s.display hout]
  | answer => simp
  | slot => simp
  | stores => rw [acceptCommand_pins, acceptCommand_pinLog]; simp
  | read => rw [acceptCommand_pins, acceptCommand_pinLog]; simp
  | send => rw [acceptCommand_pins, acceptCommand_pinLog]; simp
  | serial => simp

theorem refreshed_resp (s : State) : (refreshed s).seen.resp = s.seen.resp := by simp [refreshed, refreshStep]

theorem refreshed_tx (s : State) : (refreshed s).seen.tx = s.seen.tx := by simp [refreshed, refreshStep]

/-- The responses after an instruction: those before, or one more from a query. -/
theorem exec_resp {i : Instr} {s t : State} (h : exec i s = .next t) :
    t.seen.resp = s.seen.resp ∨
    ((i = .getstate ∨ i = .getbusy ∨ i = .getdelay ∨ i = .getwidth ∨ i = .getmode ∨ i = .received ∨ i = .rdbyte) ∧
      ∃ v, t.seen.resp = s.seen.resp ++ [v]) := by
  cases exec_effect h with
  | answer v hquery => exact .inr ⟨by tauto, v, rfl⟩
  | read => exact (runSub_resp (s.setPending (some .read))).imp_right fun ⟨_, hv⟩ => ⟨by simp, hv⟩
  | stores ws => exact .inl ((runSub_resp (s.setPending (some (.stores ws)))).resolve_right fun ⟨hread, _⟩ => nomatch hread)
  | send p =>
    exact .inl ((runSub_resp (s.setPending (remaining .send (sentBytes p)))).resolve_right
      fun ⟨hread, _⟩ => remaining_send_ne_read _ hread)
  | refresh => exact .inl (refreshed_resp s)
  | none | pulse | slot | serial => exact .inl rfl
  | edge | on | off | reset => exact .inl (by simp)

/-- The bytes sent after an instruction: those before, or one more from WRBYTES. -/
theorem exec_tx {i : Instr} {s t : State} (h : exec i s = .next t) :
    t.seen.tx = s.seen.tx ∨ ∃ p b, i = .wrbytes p ∧ t.seen.tx = s.seen.tx ++ [b] := by
  cases exec_effect h with
  | send p => exact (runSub_tx (s.setPending _)).imp_right fun ⟨b, _, _, hb⟩ => ⟨p, b, rfl, hb⟩
  | read => exact .inl ((runSub_tx (s.setPending (some .read))).resolve_right fun ⟨_, _, hsend, _⟩ => nomatch hsend)
  | stores ws =>
    exact .inl ((runSub_tx (s.setPending (some (.stores ws)))).resolve_right fun ⟨_, _, hsend, _⟩ => nomatch hsend)
  | refresh => exact .inl (refreshed_tx s)
  | none | pulse | slot | serial | answer => exact .inl rfl
  | edge | on | off | reset => exact .inl (by simp)

/-- Settles O55: the instructions by `exec_resp` and `exec_tx`, the sub-steps by their own lemmas. -/
theorem onlyQueriesRespond : Obligations.OnlyQueriesRespond :=
  ⟨fun _ _ _ h => ⟨exec_resp h, exec_tx h⟩, fun s =>
    ⟨runSub_resp s, runSub_tx s, runSub_pulse s, runSub_tables s, runSub_pinLog s, runSub_display_of_not_stores⟩⟩

/-- Settles O51: of the three kinds of step, none writes the tables (`exec_fixed`, `runSub_tables`). -/
theorem noStepWritesTheTables : Obligations.NoStepWritesTheTables := by
  intro s t h
  obtain ⟨m, q, ⟨rfl, -⟩ | ⟨-, rfl⟩ | ⟨i, hexec, -⟩⟩ := step_cases h
  · exact ⟨rfl, rfl⟩
  · exact ⟨runSub_tables _, runSub_ringSize _⟩
  · have htables := exec_tables hexec
    have hsize := exec_ringSize hexec
    exact ⟨htables, hsize⟩

/-! ### The one stop (R126, R220) -/

theorem exec_setman_of_idle (delay width : Word) {s : State} (hmode : s.pulse.mode ≠ 0) (hidle : s.pulse.busy = false) :
    exec (.setman delay width) s = .next (s.withPulse (loadManual s.pulse delay width)) := by
  have hman : manualMode s.pulse = true := decide_eq_true hmode
  simp [exec, execSetman, hman, hidle]

/-- Every instruction but a parameter load answers a next state, whatever the state. -/
theorem exec_answers {i : Instr} (s : State) (hauto : i ≠ .setauto) (hman : ∀ d w, i ≠ .setman d w) : ∃ t, exec i s = .next t := by
  cases i with
  | setauto => exact absurd rfl hauto
  | setman d w => exact absurd rfl (hman d w)
  | play value =>
    by_cases h : value.toNat < 100000
    · exact ⟨_, exec_play_of_lt s h⟩
    · exact ⟨_, exec_play_of_ge s (Nat.not_lt.mp h)⟩
  | fillat code index =>
    by_cases h : index.toNat < 5
    · exact ⟨_, exec_fillat_of_slot code s h⟩
    · exact ⟨_, exec_fillat_of_no_slot code s h⟩
  | evRefresh =>
    cases h : s.display.dispOn with
    | false => exact ⟨_, exec_evRefresh_of_off h⟩
    | true => exact ⟨_, exec_evRefresh_of_on h⟩
  | arm | getstate | getbusy | getdelay | getwidth | setmode | getmode | pwron | pwroff | fill | received | rdbyte | wrbytes
  | flush | evTrig | evBase | evRx | evTxrdy | evReset => exact ⟨_, rfl⟩

/-- An instruction that does not answer a next state is a load while busy. -/
theorem exec_next_or_load_while_busy (i : Instr) (s : State) :
    (∃ t, exec i s = .next t) ∨
    (exec i s = .fault .parameterLoadWhileBusy ∧
      s.pulse.busy = true ∧ (i = .setauto ∨ (∃ d w, i = .setman d w) ∧ s.pulse.mode ≠ 0)) := by
  by_cases hauto : i = .setauto
  · subst hauto
    cases hbusy : s.pulse.busy with
    | false => exact .inl ⟨_, exec_setauto_of_idle hbusy⟩
    | true => exact .inr ⟨exec_setauto_of_busy hbusy, rfl, .inl rfl⟩
  by_cases hman : ∃ d w, i = .setman d w
  · obtain ⟨d, w, rfl⟩ := hman
    by_cases hmode : s.pulse.mode = 0
    · exact .inl ⟨_, exec_setman_of_automatic d w hmode⟩
    · cases hbusy : s.pulse.busy with
      | false => exact .inl ⟨_, exec_setman_of_idle d w hmode hbusy⟩
      | true => exact .inr ⟨exec_setman_of_busy d w hmode hbusy, rfl, .inr ⟨⟨d, w, rfl⟩, hmode⟩⟩
  · exact .inl (exec_answers s hauto fun d w h => hman ⟨d, w, h⟩)

/-- Settles O52: what stops is a load while busy (`exec_next_or_load_while_busy`), and such a load stops (O17). -/
theorem onlyALoadWhileBusyStops : Obligations.OnlyALoadWhileBusyStops := by
  intro i s
  refine ⟨fun r h => ?refused, fun r => ⟨fun h => ?stop, fun h => ?load⟩⟩
  case refused =>
    obtain ⟨t, ht⟩ | ⟨hf, -⟩ := exec_next_or_load_while_busy i s
    · rw [ht] at h; cases h
    · rw [hf] at h; cases h
  case stop =>
    obtain ⟨t, ht⟩ | ⟨-, hload⟩ := exec_next_or_load_while_busy i s
    · rw [ht] at h; cases h
    · exact hload
  case load =>
    obtain ⟨hbusy, rfl | ⟨⟨d, w, rfl⟩, hmode⟩⟩ := h
    · exact exec_setauto_of_busy hbusy
    · exact exec_setman_of_busy d w hmode hbusy

end Sys2Proof.Machine
end

section
/-! PROOFS. What SETMAN stores (40_pulse_engine.md R122): the two paths, their numbers, and what the load leaves alone. -/

namespace Sys2Proof.Machine

theorem loadManual_fine (p : Pulse) {delay : Word} (width : Word) (h : max 5000 (min delay.toNat 99999) ≤ 65535) :
    loadManual p delay width = { p with
      tickPrescale := 1
      delayTicks := BitVec.ofNat 16 (max 5000 (min delay.toNat 99999))
      widthTicks := BitVec.ofNat 16 (max 4000 (min width.toNat 10000)) } := by
  have hd : clamp delay.toNat Config.delayMin Config.delayMax = max 5000 (min delay.toNat 99999) := clamp_eq _ _ _ (by decide)
  have hw : clamp width.toNat Config.widthMinFine Config.widthMaxFine = max 4000 (min width.toNat 10000) :=
    clamp_eq _ _ _ (by decide)
  simp only [loadManual, hd, hw, Config.scaleThreshold, Config.prescFine, if_neg (Nat.not_lt.mpr h)]

theorem loadManual_coarse (p : Pulse) {delay : Word} (width : Word) (h : 65535 < max 5000 (min delay.toNat 99999)) :
    loadManual p delay width = { p with
      tickPrescale := 2
      delayTicks := BitVec.ofNat 16 (max 5000 (min delay.toNat 99999) / 2)
      widthTicks := BitVec.ofNat 16 (max 2000 (min (width.toNat / 2) 5000)) } := by
  have hd : clamp delay.toNat Config.delayMin Config.delayMax = max 5000 (min delay.toNat 99999) := clamp_eq _ _ _ (by decide)
  have hw : clamp (width.toNat / 2) Config.widthMinCoarse Config.widthMaxCoarse = max 2000 (min (width.toNat / 2) 5000) :=
    clamp_eq _ _ _ (by decide)
  simp only [loadManual, hd, hw, Config.scaleThreshold, Config.prescCoarse, if_pos h]

/-- The numbers a load on the fine path stores. -/
theorem loadManual_fine_ticks (p : Pulse) {delay : Word} (width : Word) (h : max 5000 (min delay.toNat 99999) ≤ 65535) :
    (loadManual p delay width).tickPrescale = 1 ∧
    (loadManual p delay width).delayTicks.toNat = max 5000 (min delay.toNat 99999) ∧
    (loadManual p delay width).widthTicks.toNat = max 4000 (min width.toNat 10000) := by
  rw [loadManual_fine p width h]
  refine ⟨rfl, ?_, ?_⟩
  · simp only [BitVec.toNat_ofNat]; omega
  · simp only [BitVec.toNat_ofNat]; omega

/-- The numbers a load on the coarse path stores. -/
theorem loadManual_coarse_ticks (p : Pulse) {delay : Word} (width : Word) (h : 65535 < max 5000 (min delay.toNat 99999)) :
    (loadManual p delay width).tickPrescale = 2 ∧
    (loadManual p delay width).delayTicks.toNat = max 5000 (min delay.toNat 99999) / 2 ∧
    (loadManual p delay width).widthTicks.toNat = max 2000 (min (width.toNat / 2) 5000) := by
  rw [loadManual_coarse p width h]
  refine ⟨rfl, ?_, ?_⟩
  · simp only [BitVec.toNat_ofNat]; omega
  · simp only [BitVec.toNat_ofNat]; omega

theorem loadManual_frame (p : Pulse) (delay width : Word) :
    loadManual p delay width = { p with
      tickPrescale := (loadManual p delay width).tickPrescale
      delayTicks := (loadManual p delay width).delayTicks
      widthTicks := (loadManual p delay width).widthTicks } := by
  simp only [loadManual]
  split <;> rfl

theorem loadManual_ratio (p : Pulse) (delay width : Word) :
    (loadManual p delay width).tickPrescale = 1 ∨ (loadManual p delay width).tickPrescale = 2 := by
  obtain h | h := Nat.lt_or_ge 65535 (max 5000 (min delay.toNat 99999))
  · obtain ⟨hratio, -, -⟩ := loadManual_coarse_ticks p width h
    exact .inr hratio
  · obtain ⟨hratio, -, -⟩ := loadManual_fine_ticks p width h
    exact .inl hratio

/-- Settles O15: in manual mode, idle, SETMAN stores `loadManual`, whose two paths have the numbers above. -/
theorem setmanStoresClampedParameters : Obligations.SetmanStoresClampedParameters := by
  refine ⟨fun rest a b => ?decodes, fun delay width s => ⟨exec_setman_of_automatic delay width, fun hmode hidle => ?stored⟩⟩
  case decodes =>
    rw [List.append_assoc]
    exact decodeWW_le32Bytes .setman a b rest
  case stored =>
    refine ⟨_, exec_setman_of_idle delay width hmode hidle, loadManual_fine_ticks s.pulse width,
      loadManual_coarse_ticks s.pulse width, ?_⟩
    exact congrArg s.withPulse (loadManual_frame s.pulse delay width)

end Sys2Proof.Machine
end

section
/-! PROOFS. Reset (10_state.md R52, 70_reset_and_hazards.md R250, R251) and the machine's invariant: each operation keeps its part, and
so every step keeps the whole (10_state.md R31, R37, R38, R43 to R45, 41_display.md R168). -/

namespace Sys2Proof.Machine

/-! ### The pulse engine's part (R31) -/

theorem Pulse.reset_inv : Pulse.reset.Inv := by decide

theorem arm_inv {s : State} (h : s.pulse.Inv) : (arm s).pulse.Inv := by
  cases hbusy : s.pulse.busy with
  | true => rwa [arm_of_busy hbusy]
  | false =>
    obtain ⟨hratio, -, -, -, -, hout, hwidth, -, -, -⟩ := h
    have hratio_pos : 0 < s.pulse.tickPrescale.toNat := by
      obtain h | h := hratio <;> rw [h] <;> decide
    have hlow : s.pulse.out ≠ true := fun ho => by simp [hwidth (hout.mp ho)] at hbusy
    rw [arm_of_idle hbusy]
    refine ⟨hratio, hratio_pos, ?_, rfl, ?_, ?_, ?_, ?_, ?_, ?_⟩ <;> simp [hlow]

/-- What an idle engine's new parameters have to meet: a legal ratio. The cycle's registers are not written, and no clause on the
parameters applies while BUSY = 0. -/
theorem Pulse.inv_of_idle_load {p : Pulse} (h : p.Inv) (hidle : p.busy = false) {ratio : Byte} (hratio : ratio = 1 ∨ ratio = 2)
    (delay width : Ticks) (cursor : Fin 20) :
    ({ p with tickPrescale := ratio, delayTicks := delay, widthTicks := width, atcur := cursor } : Pulse).Inv := by
  obtain ⟨-, -, hdiv, hrun, hcomplete, hout, hwidth, -, -, hcount⟩ := h
  have hratio_pos : 0 < ratio.toNat := by
    obtain rfl | rfl := hratio <;> decide
  have hnotwidth : p.pstate ≠ .width := fun hp => by simp [hwidth hp] at hidle
  refine ⟨hratio, ?_, hdiv, hrun, hcomplete, hout, hwidth, ?_, ?_, hcount⟩
  · simpa [hdiv hidle] using hratio_pos
  · simp [hidle]
  · simp [hnotwidth]

theorem baseRegs_inv {p : Pulse} (h : p.Inv) : (baseRegs p).Inv := by
  obtain ⟨hratio, hlt, hdiv, hrun, hcomplete, hout, hwidth, hdelayCmp, hwidthCmp, hcount⟩ := h
  have hratio_pos : 0 < p.tickPrescale.toNat := Nat.lt_of_le_of_lt (Nat.zero_le _) hlt
  obtain ⟨-, e⟩ | ⟨hr, hne, e⟩ | ⟨-, -, hne, e⟩ | ⟨hr, -, -, -, e⟩ | ⟨-, -, -, -, e⟩ | ⟨hr, -, -, hp, -⟩ := baseRegs_cases p
  case inr.inr.inr.inr.inr => exact absurd hp (hcomplete (hrun ▸ hr))
  all_goals rw [e]
  case inl => exact ⟨hratio, hlt, hdiv, hrun, hcomplete, hout, hwidth, hdelayCmp, hwidthCmp, hcount⟩
  case inr.inl =>
    have hbusy : p.busy = true := hrun ▸ hr
    have hle : p.tickPrescale.toNat ≤ 2 := by
      obtain h | h := hratio <;> rw [h] <;> decide
    refine ⟨hratio, ?_, ?_, hrun, hcomplete, hout, hwidth, hdelayCmp, hwidthCmp, hcount⟩
    · change (p.divcnt + 1).toNat < _
      rw [BitVec.toNat_add_of_lt] <;> simp <;> omega
    · simp [hbusy]
  case inr.inr.inl =>
    exact ⟨hratio, hratio_pos, fun _ => rfl, hrun, hcomplete, hout, hwidth, hdelayCmp, hwidthCmp, fun _ heq => absurd heq hne⟩
  case inr.inr.inr.inl =>
    have hbusy : p.busy = true := hrun ▸ hr
    exact ⟨hratio, hratio_pos, fun _ => rfl, hrun, by simp, by simp, fun _ => hbusy, by simp, fun _ => rfl, fun _ _ => rfl⟩
  case inr.inr.inr.inr.inl =>
    exact ⟨hratio, hratio_pos, fun _ => rfl, rfl, by simp, by simp, by simp, by simp, by simp, by simp⟩

theorem exec_pulse_inv {i : Instr} {s t : State} (h : exec i s = .next t) (hinv : s.pulse.Inv) : t.pulse.Inv := by
  obtain e | ⟨-, e⟩ | ⟨d, w, -, -, hidle, e⟩ | ⟨-, hidle, e⟩ | ⟨m, -, e⟩ | ⟨-, e⟩ | ⟨-, e⟩ := exec_pulse h
  all_goals rw [e]
  · exact hinv
  · exact arm_inv hinv
  · rw [loadManual_frame]
    exact Pulse.inv_of_idle_load hinv hidle (loadManual_ratio s.pulse d w) _ _ s.pulse.atcur
  · exact Pulse.inv_of_idle_load hinv hidle (.inl rfl) _ _ _
  · exact hinv
  · exact baseRegs_inv hinv
  · exact Pulse.reset_inv

/-! ### The display's part (R37) -/

theorem exec_display_inv {i : Instr} {s t : State} (h : exec i s = .next t) (hinv : s.display.Inv) : t.display.Inv := by
  cases exec_effect h with
  | on => exact fun _ => rfl
  | off => exact fun hlit => nomatch hlit
  | refresh hon => exact fun _ => hon
  | reset => exact fun hlit => nomatch hlit
  | stores ws =>
    obtain ⟨buf, e⟩ := runSub_display (s.setPending (some (.stores ws)))
    rw [acceptCommand, e]
    exact hinv
  | read => rwa [acceptCommand_display_of_not_stores s (by simp)]
  | send p => rwa [acceptCommand_display_of_not_stores s (remaining_send_ne_stores _)]
  | none | pulse | answer | edge | slot | serial => exact hinv

theorem runSub_display_inv {s : State} (h : s.display.Inv) : (runSub s).display.Inv := by
  obtain ⟨buf, e⟩ := runSub_display s
  rw [e]
  exact h

/-! ### The ring's part (R38 to R40) -/

theorem exec_wf {i : Instr} {s t : State} (h : exec i s = .next t) (hwf : Memory.wf s.serial) : Memory.wf t.serial := by
  obtain e | ⟨-, e⟩ | ⟨-, e⟩ | ⟨-, e⟩ | ⟨b, -, e⟩ | ⟨l, -, e⟩ | ⟨-, e⟩ := exec_serial h
  all_goals rw [e]
  · exact hwf
  · exact ringPop_wf hwf
  · exact txrdy_wf hwf false
  · exact flush_wf hwf
  · exact ringPush_wf hwf b
  · exact txrdy_wf hwf (readyLevel l)
  · obtain ⟨h2, h256, -, -⟩ := hwf
    exact serialReset_wf h2 h256 s.free

/-! ### The port's part (R90, R97) -/

theorem Port.reset_inv : Port.reset.Inv := ⟨fun _ hc => (nomatch hc), rfl⟩

/-- A sub-step keeps the port: it finishes the command or leaves a live rest, and accepts no byte. -/
theorem runSub_port_inv {s : State} (h : s.port.Inv) : (runSub s).port.Inv := by
  obtain ⟨hpending, haccepted⟩ := h
  have hlive := runSub_live fun c hc => (hpending c hc).1
  refine ⟨fun c hc => ⟨hlive c hc, ?_⟩, by rwa [runSub_accepted]⟩
  cases hp : s.port.pending with
  | none =>
    have hsame : runSub s = s := runSub_of_not_subReady (by simp [subReady, hp])
    rw [hsame, hp] at hc
    cases hc
  | some d =>
    rw [runSub_accepted]
    exact (hpending d hp).2

/-- Accepting a live command on a port that is inside none. -/
theorem acceptCommand_port_inv {s : State} {c : Option Pending} (haccepted : s.port.accepted = [])
    (hlive : ∀ d ∈ c, d.live = true) : (acceptCommand s c).port.Inv :=
  runSub_port_inv (s := s.setPending c) ⟨fun d hd => ⟨hlive d hd, haccepted⟩, by rw [State.setPending_port, haccepted]; rfl⟩

theorem exec_port_inv {i : Instr} {s t : State} (h : exec i s = .next t) (hinv : s.port.Inv)
    (hmay : i.isEvent = true ∨ s.port.accepted = []) : t.port.Inv := by
  cases exec_effect h with
  | stores ws hblock hcommand hlive =>
    refine acceptCommand_port_inv (hmay.resolve_left (by simp [hcommand])) fun d hd => ?_
    cases hd
    exact hlive
  | read =>
    refine acceptCommand_port_inv (hmay.resolve_left (by simp [Instr.isEvent])) fun d hd => ?_
    cases hd
    rfl
  | send p =>
    exact acceptCommand_port_inv (hmay.resolve_left (by simp [Instr.isEvent])) (remaining_live (fun _ _ => rfl) _)
  | reset => exact Port.reset_inv
  | none | pulse | answer | edge | on | off | refresh | slot | serial => exact hinv

/-! ### The log of pins (R37 (iii), R105, R168) -/

/-- The digit lines show at most one digit. -/
theorem oneDigit_pinsOf (p : Pulse) (d : Display) : oneDigit (pinsOf p d) = true := by
  simp only [oneDigit, pinsOf]
  split
  · rfl
  · rename_i dig seg hdisplay
    split at hdisplay <;> cases hdisplay
    refine decide_eq_true fun i j hi hj => ?_
    unfold digLines at hi hj
    split at hi
    case isTrue hlit =>
      rw [if_pos hlit] at hj
      simp only [BitVec.getLsbD_twoPow, Bool.and_eq_true, decide_eq_true_eq] at hi hj
      exact Fin.ext (hi.2.symm.trans hj.2)
    case isFalse => simp at hi

theorem State.logInv_of_same {s t : State} (h : s.LogInv) (hpins : t.pins = s.pins) (hlog : t.seen.pins = s.seen.pins) :
    t.LogInv := by
  rw [State.LogInv, hpins, hlog]
  exact h

/-- Driving pins that may follow the present ones keeps the log in form. -/
theorem State.drive_logInv {s : State} {p : Pulse} {d : Display} (h : s.LogInv)
    (hmay : pinsOf p d ≠ s.pins → mayFollow s.pins (pinsOf p d) = true) : (s.drive p d).LogInv := by
  obtain ⟨hlast, hone, hchain⟩ := h
  have hpins : (s.drive p d).pins = pinsOf p d := rfl
  rw [State.LogInv, hpins, State.drive_pins]
  split
  case isTrue hsame =>
    rw [List.append_nil, hsame]
    exact ⟨hlast, hone, hchain⟩
  case isFalse hdiff =>
    refine ⟨List.getLast?_concat .., fun c hc => ?_, List.isChain_append.mpr ⟨hchain, List.isChain_singleton _, ?_⟩⟩
    · obtain hc | hc := List.mem_append.mp hc
      · exact hone c hc
      · rw [List.mem_singleton.mp hc]
        exact oneDigit_pinsOf p d
    · intro x hx y hy
      rw [hlast] at hx
      cases hx
      cases hy
      exact hmay hdiff

theorem mayFollow_of_off {a b : Pins} (hdiff : a ≠ b) (h : a.display = none ∨ b.display = none) : mayFollow a b = true := by
  simp only [mayFollow, hdiff, ne_eq, not_false_eq_true, decide_true, Bool.true_and]
  split
  case h_1 ha hb => simp [ha, hb] at h
  case h_2 => rfl

/-- Between two driven configurations: the same segments and not two different digits, or no digit in either. -/
theorem mayFollow_of_driven {a b : Pins} {digA digB : BitVec 5} {segA segB : BitVec 8} (hdiff : a ≠ b)
    (ha : a.display = some (digA, segA)) (hb : b.display = some (digB, segB))
    (h : segA = segB ∧ (digA = 0 ∨ digB = 0 ∨ digA = digB) ∨ digA = 0 ∧ digB = 0) : mayFollow a b = true := by
  simp only [mayFollow, ha, hb, hdiff, ne_eq, not_false_eq_true, decide_true, Bool.true_and]
  obtain ⟨hseg, hdig⟩ | ⟨hzeroA, hzeroB⟩ := h
  · simpa [hseg, or_assoc] using hdig
  · simp [hzeroA, hzeroB]

theorem mayFollow_of_same_display {a b : Pins} (hdiff : a ≠ b) (h : a.display = b.display) : mayFollow a b = true := by
  cases hb : b.display with
  | none => exact mayFollow_of_off hdiff (.inr hb)
  | some lines => exact mayFollow_of_driven hdiff (h.trans hb) hb (.inl ⟨rfl, .inr (.inr rfl)⟩)

/-- A sub-step of a refresh keeps the log in form (R168): it keeps the segments and has no digit lit before or after it, or changes the
segments with no digit lit before and after it. -/
theorem refreshStep_logInv {s : State} {f : Display → Display} (h : s.LogInv) (hon : (f s.display).dispOn = s.display.dispOn)
    (hmay : (f s.display).seglatch = s.display.seglatch ∧ ((f s.display).lit = false ∨ s.display.lit = false) ∨
      s.display.lit = false ∧ (f s.display).lit = false) : (refreshStep f s).LogInv := by
  refine State.drive_logInv h fun hdiff => ?_
  cases hs : s.display.dispOn with
  | false => exact mayFollow_of_off hdiff.symm (.inl (if_neg (by simp [hs])))
  | true =>
    refine mayFollow_of_driven hdiff.symm (if_pos hs) (if_pos (hon.trans hs)) ?_
    obtain ⟨hseg, hlit | hlit⟩ | ⟨hlit, hlit'⟩ := hmay
    · exact .inl ⟨hseg.symm, .inr (.inl (digLines_of_unlit hlit))⟩
    · exact .inl ⟨hseg.symm, .inl (digLines_of_unlit hlit)⟩
    · exact .inr ⟨digLines_of_unlit hlit, digLines_of_unlit hlit'⟩

theorem refreshed_logInv {s : State} (h : s.LogInv) : (refreshed s).LogInv := by
  have h1 : (refreshStep refreshDeactivate s).LogInv := refreshStep_logInv h rfl (.inl ⟨rfl, .inl rfl⟩)
  have h2 := refreshStep_logInv (f := refreshAdvance) h1 rfl (.inl ⟨rfl, .inl rfl⟩)
  have h3 := refreshStep_logInv (f := refreshLatch) h2 rfl (.inr ⟨rfl, rfl⟩)
  exact refreshStep_logInv (f := refreshActivate) h3 rfl (.inl ⟨rfl, .inr rfl⟩)

theorem exec_logInv {i : Instr} {s t : State} (h : exec i s = .next t) (hinv : s.LogInv) : t.LogInv := by
  cases exec_effect h with
  | edge => exact State.drive_logInv hinv fun hdiff => mayFollow_of_same_display hdiff.symm rfl
  | on =>
    refine State.drive_logInv hinv fun hdiff => ?_
    cases hon : s.display.dispOn with
    | false => exact mayFollow_of_off hdiff.symm (.inl (by simp [pinsOf, hon]))
    | true => exact absurd (by simp [pinsOf, hon, digLines]) hdiff
  | off => exact State.drive_logInv hinv fun hdiff => mayFollow_of_off hdiff.symm (.inr rfl)
  | refresh => exact refreshed_logInv hinv
  | reset =>
    exact State.logInv_of_same (s := s.drive Pulse.reset Display.reset)
      (State.drive_logInv hinv fun hdiff => mayFollow_of_off hdiff.symm (.inr rfl)) rfl rfl
  | pulse p hblock hout => exact State.logInv_of_same hinv (pinsOf_eq_of_out s.display hout) rfl
  | stores | read | send => exact State.logInv_of_same hinv (acceptCommand_pins s _) (acceptCommand_pinLog s _)
  | none | answer | slot | serial => exact State.logInv_of_same hinv rfl rfl

theorem runSub_logInv {s : State} (h : s.LogInv) : (runSub s).LogInv :=
  State.logInv_of_same h (by simp) (runSub_pinLog s)

/-! ### The whole invariant -/

theorem exec_inv {i : Instr} {s t : State} (h : exec i s = .next t) (hinv : s.Inv)
    (hmay : i.isEvent = true ∨ s.port.accepted = []) : t.Inv := by
  obtain ⟨hpulse, hdisplay, hserial, htables, hport, hlog⟩ := hinv
  exact ⟨exec_pulse_inv h hpulse, exec_display_inv h hdisplay, exec_wf h hserial, by rwa [exec_tables h],
    exec_port_inv h hport hmay, exec_logInv h hlog⟩

theorem runSub_inv {s : State} (h : s.Inv) : (runSub s).Inv := by
  obtain ⟨hpulse, hdisplay, hserial, htables, hport, hlog⟩ := h
  exact ⟨by rwa [runSub_pulse], runSub_display_inv hdisplay, runSub_wf hserial, by rwa [runSub_tables], runSub_port_inv hport,
    runSub_logInv hlog⟩

theorem State.Inv.port {s : State} (h : s.Inv) : s.port.Inv := by
  obtain ⟨-, -, -, -, hport, -⟩ := h
  exact hport

/-- Another stimulus and another port in form leave the invariant. -/
theorem State.inv_withPort {s : State} (h : s.Inv) (m : Stimulus) {q : Port} (hq : q.Inv) :
    ({ s with stim := m, port := q } : State).Inv := by
  obtain ⟨hpulse, hdisplay, hserial, htables, -, hlog⟩ := h
  exact ⟨hpulse, hdisplay, hserial, htables, hq, hlog⟩

/-- Settles O50: of the three kinds of step, the idle one by `State.inv_withPort`, a sub-step by `runSub_inv`, an instruction by
`exec_inv`. -/
theorem everyStepKeepsTheInvariant : Obligations.EveryStepKeepsTheInvariant := by
  intro s t hinv h
  have hport := State.Inv.port hinv
  obtain ⟨m, q, ⟨rfl, hq⟩ | ⟨rfl, rfl⟩ | ⟨i, hexec, hq⟩⟩ := step_cases h
  · obtain rfl | ⟨-, hnone, hdec⟩ := hq
    · exact State.inv_withPort hinv m hport
    · exact State.inv_withPort hinv m ⟨fun c hc => (nomatch hnone ▸ hc), hdec⟩
  · exact runSub_inv (State.inv_withPort hinv m hport)
  · obtain ⟨hevent, rfl⟩ | rfl := hq
    · exact exec_inv hexec (State.inv_withPort hinv m hport) (.inl hevent)
    · exact exec_inv hexec (State.inv_withPort hinv m Port.reset_inv) (.inr rfl)

/-! ### Reset (R52, R250, R251) -/

/-- Settles O48: the registers' reset values and the pins they give are computed. -/
theorem resetStateHoldsTheSpecValues : Obligations.ResetStateHoldsTheSpecValues :=
  ⟨rfl, rfl, rfl, rfl, rfl, rfl, rfl, fun _ => rfl, fun _ => rfl⟩

/-- Settles O47: the answer of EV_RESET, its fields read off; the ring keeps its size (`ringSize_reset`). -/
theorem resetRestoresTheResetValues : Obligations.ResetRestoresTheResetValues :=
  ⟨fun _ => rfl, fun s => ⟨_, rfl, rfl, rfl, rfl, rfl, rfl, ringSize_reset s.free _, rfl, rfl, rfl,
    State.drive_resp s _ _, State.drive_tx s _ _, rfl, fun _ => rfl, fun _ => rfl⟩⟩

theorem Tables.default_inv : Tables.default.Inv := by
  refine ⟨rfl, rfl, rfl, ?_, ?_, ⟨7, rfl⟩⟩
  · decide
  · decide

theorem State.reset_logInv : State.reset.LogInv :=
  ⟨rfl, List.forall_mem_singleton.mpr rfl, List.isChain_singleton _⟩

/-- Settles O49: each part of the invariant at reset, the ring's for every capacity RING_CAP allows. -/
theorem resetMeetsTheInvariant : Obligations.ResetMeetsTheInvariant :=
  ⟨Pulse.reset_inv, fun hlit => (nomatch hlit), reset_memory_wf, Tables.default_inv, Port.reset_inv, State.reset_logInv⟩

end Sys2Proof.Machine
end

section
/-! PROOFS. The display multiplexer over several steps (41_display.md): byte writes, refreshes, decoding, and what the display depends
on. -/

namespace Sys2Proof.Machine

/-! ### What the display depends on (R171) -/

/-- The display and the command in progress after an instruction that is not the serial buffer's, from the display, the tables and the
command in progress before it; `exec_displayAfter` ties it to `exec`. -/
def displayAfter (i : Instr) (tables : Tables) (d : Display) (c : Option Pending) : Display × Option Pending :=
  match i with
  | .pwron => ({ d with dispOn := true }, c)
  | .pwroff => ({ d with lit := false, dispOn := false }, c)
  | .play value =>
    if value.toNat < 100000 then
      (dbufWrite d 0 (playCode tables value.toNat 0), remaining .stores (playStores tables value).tail)
    else (d, c)
  | .fill code => (dbufWrite d 0 code, remaining .stores (fillStores code).tail)
  | .fillat code index => if h : index.toNat < 5 then (dbufWrite d ⟨index.toNat, h⟩ code, c) else (d, c)
  | .evRefresh =>
    if d.dispOn then (refreshActivate (refreshLatch (refreshAdvance (refreshDeactivate d))), c) else (d, c)
  | .evReset => (Display.reset, none)
  | _ => (d, c)

/-- The first byte write of a command with stores falls in the step that accepts it. -/
theorem acceptCommand_stores_cons (s : State) (i : Fin 5) (c : Byte) (ws : List (Fin 5 × Byte)) :
    acceptCommand s (some (.stores ((i, c) :: ws))) =
      (s.withDisplay (dbufWrite s.display i c)).setPending (remaining .stores ws) := rfl

theorem exec_displayAfter {i : Instr} {s t : State} (h : exec i s = .next t) (hblock : blockOf i ≠ .serial) :
    (t.display, t.port.pending) = displayAfter i s.tables s.display s.port.pending := by
  cases i with
  | play value =>
    by_cases hlt : value.toNat < 100000
    · rw [exec_play_of_lt s hlt] at h
      cases h
      exact (if_pos hlt).symm
    · rw [exec_play_of_ge s (Nat.not_lt.mp hlt)] at h
      cases h
      exact (if_neg hlt).symm
  | fillat code index =>
    by_cases hlt : index.toNat < 5
    · rw [exec_fillat_of_slot code s hlt] at h
      cases h
      change _ = dite _ _ _
      rw [dif_pos hlt]
      rfl
    · rw [exec_fillat_of_no_slot code s hlt] at h
      cases h
      change _ = dite _ _ _
      rw [dif_neg hlt]
  | evRefresh =>
    cases hon : s.display.dispOn with
    | false =>
      rw [exec_evRefresh_of_off hon] at h
      cases h
      exact (if_neg (by simp [hon])).symm
    | true =>
      rw [exec_evRefresh_of_on hon] at h
      cases h
      exact (if_pos hon).symm
  | setman delay width =>
    simp only [exec, execSetman] at h
    split at h
    · split at h <;> cases h
      rfl
    · cases h; rfl
  | setauto =>
    simp only [exec, execSetauto] at h
    split at h <;> cases h
    rfl
  | arm | evTrig =>
    cases h
    unfold arm
    split <;> rfl
  | received | rdbyte | wrbytes | flush | evRx | evTxrdy => exact absurd rfl hblock
  | getstate | getbusy | getdelay | getwidth | setmode | getmode | pwron | pwroff | fill | evBase | evReset => cases h; rfl

/-- Settles O35: both runs end in `displayAfter` of the same three things. -/
theorem displayDependsOnItselfAlone : Obligations.DisplayDependsOnItselfAlone := by
  intro i s₁ s₂ t₁ t₂ hdisplay htables h₁ h₂ hpending hblock
  have hsame : (t₁.display, t₁.port.pending) = (t₂.display, t₂.port.pending) := by
    rw [exec_displayAfter h₁ hblock, exec_displayAfter h₂ hblock, hdisplay, htables, hpending]
  obtain ⟨hd, hp⟩ := Prod.mk.inj hsame
  exact ⟨hd, by rw [exec_tables h₁, exec_tables h₂, htables], hp⟩

/-! ### Five byte writes (R161, R162, R166) -/

/-- The state in which slots 0 to `k` hold their code, the others their old byte, and the later writes are still to make. -/
def storedUpTo (code : Fin 5 → Byte) (s : State) (k : Nat) : State :=
  (s.withDisplay { s.display with dbuf := Vector.ofFn fun i => if i.val ≤ k then code i else s.display.dbuf[i] }).setPending
    (remaining .stores ((slots.drop (k + 1)).map fun i => (i, code i)))

section Stores

variable (code : Fin 5 → Byte) (s : State)

theorem storedUpTo_dbuf (k : Nat) (i : Fin 5) :
    (storedUpTo code s k).display.dbuf[i] = if i.val ≤ k then code i else s.display.dbuf[i] := by
  simp [storedUpTo]

/-- The slots in ascending order, one after another. -/
theorem slots_drop {k : Nat} (hk : k < 5) : slots.drop k = ⟨k, hk⟩ :: slots.drop (k + 1) := by
  interval_cases k <;> rfl

/-- One more write takes the buffer from slots 0 to `k` to slots 0 to `k + 1`. -/
theorem set_dbuf_upTo (old : Vector Byte 5) {k : Nat} (hk : k + 1 < 5) :
    (Vector.ofFn fun i : Fin 5 => if i.val ≤ k then code i else old[i]).set (k + 1) (code ⟨k + 1, hk⟩) =
      Vector.ofFn fun i : Fin 5 => if i.val ≤ k + 1 then code i else old[i] := by
  refine Vector.ext fun i hi => ?_
  simp only [Vector.getElem_set, Vector.getElem_ofFn]
  obtain hlt | rfl | hgt := Nat.lt_trichotomy (k + 1) i
  · rw [if_neg (by omega), if_neg (by omega), if_neg (by omega)]
  · rw [if_pos rfl, if_pos le_rfl]
  · rw [if_neg (by omega), if_pos (by omega), if_pos (by omega)]

theorem acceptCommand_slots : acceptCommand s (some (.stores (slots.map fun i => (i, code i)))) = storedUpTo code s 0 := by
  have hbuf : dbufWrite s.display 0 (code 0) =
      { s.display with dbuf := Vector.ofFn fun i : Fin 5 => if i.val ≤ 0 then code i else s.display.dbuf[i] } := by
    refine congrArg (fun buf => { s.display with dbuf := buf }) (Vector.ext fun i hi => ?_)
    rw [Vector.getElem_set, Vector.getElem_ofFn]
    cases i with
    | zero => rfl
    | succ i => exact (if_neg (Nat.succ_ne_zero i).symm).trans (if_neg (Nat.not_succ_le_zero i)).symm
  exact congrArg (fun d => (s.withDisplay d).setPending (remaining .stores ((slots.drop 1).map fun i => (i, code i)))) hbuf

theorem storedUpTo_pending {k : Nat} (hk : k + 1 < 5) :
    (storedUpTo code s k).port.pending =
      some (.stores ((⟨k + 1, hk⟩, code ⟨k + 1, hk⟩) :: (slots.drop (k + 2)).map fun i => (i, code i))) := by
  rw [storedUpTo, State.setPending_port, slots_drop hk]
  rfl

theorem runSub_storedUpTo {k : Nat} (hk : k < 4) : runSub (storedUpTo code s k) = storedUpTo code s (k + 1) := by
  have hk : k + 1 < 5 := Nat.succ_lt_succ hk
  simp only [runSub, storedUpTo_pending code s hk]
  exact congrArg
    (fun buf => (s.withDisplay { s.display with dbuf := buf }).setPending
      (remaining .stores ((slots.drop (k + 2)).map fun i => (i, code i))))
    (set_dbuf_upTo code s.display.dbuf hk)

theorem subSteps_succ (n : Nat) (s : State) : subSteps (n + 1) s = runSub (subSteps n s) := by
  induction n generalizing s with
  | zero => rfl
  | succ n ih => exact ih (runSub s)

theorem subSteps_storedUpTo {k : Nat} (hk : k ≤ 4) : subSteps k (storedUpTo code s 0) = storedUpTo code s k := by
  induction k with
  | zero => rfl
  | succ k ih => rw [subSteps_succ, ih (Nat.le_of_lt hk), runSub_storedUpTo code s hk]

theorem subReady_storedUpTo {k : Nat} (hk : k < 4) : subReady (storedUpTo code s k) = true := by
  simp only [subReady, storedUpTo_pending code s (Nat.succ_lt_succ hk)]

theorem storedUpTo_four :
    storedUpTo code s 4 =
      { s with display := { s.display with dbuf := Vector.ofFn code }, port := { s.port with pending := none } } := by
  have hbuf : (Vector.ofFn fun i : Fin 5 => if i.val ≤ 4 then code i else s.display.dbuf[i]) = Vector.ofFn code :=
    congrArg Vector.ofFn (funext fun i => if_pos (Nat.le_of_lt_succ i.isLt))
  rw [storedUpTo, hbuf]
  rfl

/-- What both PLAY and FILL do once accepted: each further write enabled at once, after `k` of them the slots 0 to `k` written, after
the fourth nothing left. -/
theorem acceptCommand_slots_spec :
    (∀ k, k ≤ 4 → ∀ i : Fin 5,
      (subSteps k (acceptCommand s (some (.stores (slots.map fun i => (i, code i)))))).display.dbuf[i] =
        if i.val ≤ k then code i else s.display.dbuf[i]) ∧
    (∀ k, k < 4 → subReady (subSteps k (acceptCommand s (some (.stores (slots.map fun i => (i, code i)))))) = true) ∧
    subSteps 4 (acceptCommand s (some (.stores (slots.map fun i => (i, code i))))) =
      { s with display := { s.display with dbuf := Vector.ofFn code }, port := { s.port with pending := none } } := by
  rw [acceptCommand_slots]
  refine ⟨fun k hk i => ?_, fun k hk => ?_, ?_⟩
  · rw [subSteps_storedUpTo code s hk]
    exact storedUpTo_dbuf code s k i
  · rw [subSteps_storedUpTo code s (Nat.le_of_lt hk)]
    exact subReady_storedUpTo code s hk
  · rw [subSteps_storedUpTo code s le_rfl]
    exact storedUpTo_four code s

end Stores

/-- Settles O30: FILL is five byte writes of one code. -/
theorem fillWritesEverySlot : Obligations.FillWritesEverySlot := by
  refine ⟨fun _ _ => rfl, fun code s => ⟨_, rfl, ?_⟩⟩
  exact acceptCommand_slots_spec (fun _ => code) s

/-- Settles O29: PLAY is five byte writes of the digits' codes. -/
theorem playWritesTheDigitCodes : Obligations.PlayWritesTheDigitCodes := by
  refine ⟨fun rest a => decodeW_le32Bytes .play a rest, fun value s => ⟨exec_play_of_ge s, fun hlt => ?_⟩⟩
  exact ⟨_, exec_play_of_lt s hlt, acceptCommand_slots_spec (playCode s.tables value.toNat) s⟩

/-! ### Reading the digits back (R170) -/

theorem and_not_of_and_eq_zero {x m : Byte} (h : x &&& m = 0) : x &&& ~~~m = x := by
  have hsplit : x = (x &&& ~~~m) ||| (x &&& m) := by
    rw [← BitVec.and_or_distrib_left, BitVec.or_comm, BitVec.or_not_self, BitVec.and_allOnes]
  rw [h] at hsplit
  exact (hsplit.trans BitVec.or_zero).symm

/-- Where the codes are distinct, the digit of a code is the one that has it. -/
theorem decodeDigit_eq {t : Tables} (hinj : ∀ i j : Fin 10, t.segTable[i] = t.segTable[j] → i = j) {c : Byte} {k : Fin 10}
    (hk : t.segTable[k] = c &&& ~~~t.dpMask) : decodeDigit t c = some k := by
  cases hfind : decodeDigit t c with
  | none =>
    have := List.find?_eq_none.mp hfind k (List.mem_finRange k)
    simp [hk] at this
  | some j =>
    have hj : t.segTable[j] = c &&& ~~~t.dpMask := by simpa using List.find?_some hfind
    rw [hinj j k (hj.trans hk.symm)]

/-- The code PLAY writes to a slot: without the decimal point it is the digit's code, and the point is on slot 4 alone. -/
theorem playCode_points {t : Tables} (h : t.Inv) (v : Nat) (i : Fin 5) :
    playCode t v i &&& ~~~t.dpMask = t.segTable[digit v i.val] ∧ (playCode t v i &&& t.dpMask ≠ 0 ↔ i = 4) := by
  obtain ⟨-, -, -, -, hclear, k, hmask⟩ := h
  have hne : t.dpMask ≠ 0 := by
    rw [hmask]
    exact (by decide : ∀ k : Fin 8, BitVec.twoPow 8 k.val ≠ 0) k
  have hclear : t.segTable[digit v i.val] &&& t.dpMask = 0 := hclear (digit v i.val)
  unfold playCode
  split
  case isTrue htop =>
    refine ⟨?_, iff_of_true ?_ htop⟩
    · rw [BitVec.and_or_distrib_right, BitVec.and_not_self]
      exact BitVec.or_zero.trans (and_not_of_and_eq_zero hclear)
    · rw [BitVec.and_or_distrib_right, BitVec.and_self, hclear]
      exact fun hzero => hne (BitVec.zero_or.symm.trans hzero)
  case isFalse htop => exact ⟨and_not_of_and_eq_zero hclear, iff_of_false (fun hn => hn hclear) htop⟩

/-- Settles O34: after PLAY each slot holds its code (O29), which decodes to its digit. -/
theorem playDecodesBackToItsDigits : Obligations.PlayDecodesBackToItsDigits := by
  intro value s htables hlt
  have ⟨_, _, _, hinj, _, _⟩ := htables
  obtain ⟨hslots, -, -⟩ := acceptCommand_slots_spec (playCode s.tables value.toNat) s
  refine ⟨_, exec_play_of_lt s hlt, fun i => ?_⟩
  have hcode : (subSteps 4 (acceptCommand s (some (.stores (playStores s.tables value))))).display.dbuf[i] =
      playCode s.tables value.toNat i :=
    (hslots 4 le_rfl i).trans (if_pos (Nat.le_of_lt_succ i.isLt))
  rw [hcode]
  obtain ⟨hdigit, hpoint⟩ := playCode_points htables value.toNat i
  exact ⟨⟨_, decodeDigit_eq hinj hdigit.symm, rfl⟩, hpoint⟩

/-! ### The refresh (R167, R168) -/

theorem refreshed_display (s : State) :
    (refreshed s).display = { s.display with
      cursor := s.display.cursor + 1, seglatch := s.display.dbuf[s.display.cursor + 1], lit := true } := rfl

theorem refreshStep_pinLog (f : Display → Display) (s : State) :
    (refreshStep f s).seen.pins =
      s.seen.pins ++ (if pinsOf s.pulse (f s.display) = pinsOf s.pulse s.display then [] else [pinsOf s.pulse (f s.display)]) :=
  State.drive_pins s s.pulse (f s.display)

/-- The pins a refresh shows, one after another (R168). -/
theorem refreshed_pinLog {s : State} (hon : s.display.dispOn = true) :
    (refreshed s).seen.pins =
      s.seen.pins ++
        (if s.display.lit then [⟨s.pulse.out, some (0, s.display.seglatch)⟩] else []) ++
        (if (refreshed s).display.seglatch = s.display.seglatch then []
          else [⟨s.pulse.out, some (0, (refreshed s).display.seglatch)⟩]) ++
        [⟨s.pulse.out, some (BitVec.twoPow 5 (refreshed s).display.cursor.val, (refreshed s).display.seglatch)⟩] := by
  have hdeactivate : (refreshStep refreshDeactivate s).seen.pins =
      s.seen.pins ++ if s.display.lit then [⟨s.pulse.out, some (0, s.display.seglatch)⟩] else [] := by
    rw [refreshStep_pinLog, pinsOf_of_on (d := refreshDeactivate s.display) _ hon, pinsOf_of_on _ hon,
      digLines_of_unlit (d := refreshDeactivate s.display) rfl]
    cases hlit : s.display.lit with
    | false => simp [digLines_of_unlit hlit, refreshDeactivate]
    | true => simp [digLines_of_lit hlit, refreshDeactivate, Ne.symm (digLine_ne_zero s.display.cursor)]
  have hadvance (u : State) (hlit : u.display.lit = false) : (refreshStep refreshAdvance u).seen.pins = u.seen.pins := by
    have hsame : pinsOf u.pulse (refreshAdvance u.display) = pinsOf u.pulse u.display := by
      simp [pinsOf, digLines, refreshAdvance, hlit]
    rw [refreshStep_pinLog, if_pos hsame, List.append_nil]
  have hlatch (u : State) (hu : u.display.dispOn = true) (hlit : u.display.lit = false) :
      (refreshStep refreshLatch u).seen.pins = u.seen.pins ++
        if (refreshLatch u.display).seglatch = u.display.seglatch then []
          else [⟨u.pulse.out, some (0, (refreshLatch u.display).seglatch)⟩] := by
    rw [refreshStep_pinLog, pinsOf_of_on (d := refreshLatch u.display) _ hu, pinsOf_of_on _ hu, digLines_of_unlit hlit,
      digLines_of_unlit (d := refreshLatch u.display) hlit]
    simp
  have hactivate (u : State) (hu : u.display.dispOn = true) (hlit : u.display.lit = false) :
      (refreshStep refreshActivate u).seen.pins = u.seen.pins ++
        [⟨u.pulse.out, some (BitVec.twoPow 5 u.display.cursor.val, u.display.seglatch)⟩] := by
    rw [refreshStep_pinLog, pinsOf_of_on (d := refreshActivate u.display) _ hu, pinsOf_of_on _ hu, digLines_of_unlit hlit,
      digLines_of_lit (d := refreshActivate u.display) rfl]
    simp [refreshActivate, digLine_ne_zero]
  rw [refreshed, hactivate, hlatch, hadvance, hdeactivate]
  · rfl
  exacts [rfl, hon, rfl, hon, rfl]

theorem refreshed_frame (s : State) :
    refreshed s = { s with
      display := { s.display with
        cursor := (refreshed s).display.cursor, seglatch := (refreshed s).display.seglatch, lit := true }
      seen := { s.seen with pins := (refreshed s).seen.pins } } := by
  have hseen : (refreshed s).seen = ⟨s.seen.resp, s.seen.tx, (refreshed s).seen.pins⟩ := by
    rw [← refreshed_resp s, ← refreshed_tx s]
  rw [← hseen]
  rfl

/-- Settles O32: a refresh that is not lost makes `refreshed`; its registers, its frame and its pins. -/
theorem refreshShowsTheNextSlot : Obligations.RefreshShowsTheNextSlot := by
  refine ⟨fun _ => rfl, fun s => ⟨exec_evRefresh_of_off, fun hon => ?_⟩⟩
  exact ⟨_, exec_evRefresh_of_on hon, Fin.val_add s.display.cursor 1, rfl, rfl, refreshed_frame s, refreshed_pinLog hon⟩

/-! ### Five refreshes (R169) -/

theorem execAll_replicate_evRefresh (n : Nat) {s : State} (hon : s.display.dispOn = true) :
    execAll (List.replicate n .evRefresh) s = .next (refreshed^[n] s) := by
  induction n generalizing s with
  | zero => rfl
  | succ n ih =>
    rw [List.replicate_succ, execAll, exec_evRefresh_of_on hon]
    exact ih hon

/-- After at least one refresh: the cursor advanced once by each, its slot's byte in the latch, lit; the buffer as it was. -/
theorem refreshed_iterate_display (n : Nat) (s : State) :
    (refreshed^[n + 1] s).display = { s.display with
      cursor := s.display.cursor + Fin.ofNat 5 (n + 1)
      seglatch := s.display.dbuf[s.display.cursor + Fin.ofNat 5 (n + 1)]
      lit := true } := by
  induction n with
  | zero => rfl
  | succ n ih =>
    have hnext : s.display.cursor + Fin.ofNat 5 (n + 1) + 1 = s.display.cursor + Fin.ofNat 5 (n + 1 + 1) := by
      rw [add_assoc]
      exact congrArg (s.display.cursor + ·) (Fin.ext (Nat.mod_add_mod (n + 1) 5 1))
    rw [Function.iterate_succ_apply', refreshed_display]
    simp only [ih, hnext]

/-- Settles O33: the display after `k + 1` refreshes, and the cursor's values are the five residues. -/
theorem fiveRefreshesLightEverySlotOnce : Obligations.FiveRefreshesLightEverySlotOnce := by
  intro s hon
  have hcursor (n : Nat) : (refreshed^[n + 1] s).display.cursor = s.display.cursor + Fin.ofNat 5 (n + 1) := by
    rw [refreshed_iterate_display]
  refine ⟨fun k => refreshed^[k.val + 1] s, fun k => ⟨execAll_replicate_evRefresh _ hon, ?cursor, ?lit, ?latch⟩, ?once, ?back⟩
  case cursor =>
    rw [hcursor, Fin.val_add, Fin.val_ofNat]
    exact Nat.add_mod_mod _ _ _
  case lit => rw [refreshed_iterate_display]
  case latch => simp only [refreshed_iterate_display]
  case once =>
    intro slot
    simp only [hcursor, ExistsUnique]
    exact (by decide : ∀ c slot : Fin 5, ∃ k : Fin 5, c + Fin.ofNat 5 (k.val + 1) = slot ∧
      ∀ j : Fin 5, c + Fin.ofNat 5 (j.val + 1) = slot → j = k) s.display.cursor slot
  case back =>
    refine (hcursor 4).trans ?_
    exact add_zero s.display.cursor

end Sys2Proof.Machine
end

section
/-! PROOFS. The pulse engine over several instructions (40_pulse_engine.md): the automatic table, what is read back after SETMAN, the
two matches, the table of transitions and the order of a trigger and an edge. -/

namespace Sys2Proof.Machine

/-! ### The automatic table (R123 (a)) -/

/-- SETAUTO does not change BUSY, so idle loads follow one another. -/
theorem execAll_replicate_setauto (n : Nat) {s : State} (hidle : s.pulse.busy = false) :
    execAll (List.replicate n .setauto) s = .next (s.withPulse ((loadAuto · s.tables)^[n] s.pulse)) := by
  induction n generalizing s with
  | zero => rfl
  | succ n ih =>
    rw [List.replicate_succ, execAll, exec_setauto_of_idle hidle]
    exact ih (s := s.withPulse (loadAuto s.pulse s.tables)) hidle

theorem loadAuto_iterate_atcur (t : Tables) (n : Nat) (p : Pulse) :
    ((loadAuto · t)^[n] p).atcur.val = (p.atcur.val + n) % 20 := by
  induction n with
  | zero => exact (Nat.mod_eq_of_lt p.atcur.isLt).symm
  | succ n ih => rw [Function.iterate_succ_apply', loadAuto_atcur_val, ih, Nat.mod_add_mod, Nat.add_assoc]

theorem loadAuto_iterate_busy (t : Tables) (n : Nat) (p : Pulse) : ((loadAuto · t)^[n] p).busy = p.busy := by
  induction n with
  | zero => rfl
  | succ n ih => rw [Function.iterate_succ_apply', ← ih]; rfl

/-- Settles O18: the loads are iterates of `loadAuto`, whose cursor counts them; the last one loads from the cursor before it. -/
theorem autoTableRotatesThroughAllEntries : Obligations.AutoTableRotatesThroughAllEntries := by
  intro s k hidle
  have hcursor := loadAuto_iterate_atcur s.tables k s.pulse
  refine ⟨_, execAll_replicate_setauto (k + 1) hidle, loadAuto_iterate_atcur s.tables (k + 1) s.pulse, fun _ => ?entry, ?tick,
    (loadAuto_iterate_busy s.tables (k + 1) s.pulse).trans hidle⟩
  case entry =>
    simp only [State.withPulse_pulse, Function.iterate_succ_apply', loadAuto, Fin.getElem_fin]
    simp only [← hcursor]
    exact ⟨rfl, rfl⟩
  case tick => rw [State.withPulse_pulse, Function.iterate_succ_apply']; rfl

/-! ### Reading back what SETMAN stored (R137) -/

/-- Settles O21: the responses are `toApiUnits` of the stored ticks; the three ranges of the delay by the path they take. -/
theorem manualParametersRoundTrip : Obligations.ManualParametersRoundTrip := by
  intro delay width s hmode hidle
  have hrun (p : Pulse) (hp : exec (.setman delay width) s = .next (s.withPulse p)) :
      execAll [.setman delay width, .getdelay, .getwidth] s = .next
        (((s.withPulse p).respond (toApiUnits p.delayTicks p.tickPrescale)).respond
          (toApiUnits p.widthTicks p.tickPrescale)) := by
    rw [execAll, hp]
    rfl
  refine ⟨_, _, _, hrun _ (exec_setman_of_idle delay width hmode hidle), List.append_assoc s.seen.resp [_] [_], ?_⟩
  rw [toApiUnits_toNat, toApiUnits_toNat]
  obtain hpath | hpath := Nat.lt_or_ge 65535 (max 5000 (min delay.toNat 99999))
  · obtain ⟨hratio, hdelay, hwidth⟩ := loadManual_coarse_ticks s.pulse width hpath
    rw [hratio, hdelay, hwidth, show (2 : Byte).toNat = 2 from rfl]
    omega
  · obtain ⟨hratio, hdelay, hwidth⟩ := loadManual_fine_ticks s.pulse width hpath
    rw [hratio, hdelay, hwidth, show (1 : Byte).toNat = 1 from rfl]
    omega

/-! ### The two matches (R133, R134) -/

theorem baseRegs_of_match_in_delay {p : Pulse} (hrun : p.divrun = true) (hdiv : p.divcnt.toNat + 1 = p.tickPrescale.toNat)
    (hcnt : p.tcnt + 1 = p.cmp) (hstate : p.pstate = .delay) :
    baseRegs p = { p with divcnt := 0, tcnt := 0, pstate := .width, cmp := p.widthTicks, out := true } := by
  rw [baseRegs_of_full hrun hdiv, tickRegs_of_match (p := { p with divcnt := 0 }) hcnt]
  simp only [matchRegs, hstate]

theorem baseRegs_of_match_in_width {p : Pulse} (hrun : p.divrun = true) (hdiv : p.divcnt.toNat + 1 = p.tickPrescale.toNat)
    (hcnt : p.tcnt + 1 = p.cmp) (hstate : p.pstate = .width) :
    baseRegs p =
      { p with divcnt := 0, tcnt := 0, out := false, divrun := false, busy := false, pstate := .complete } := by
  rw [baseRegs_of_full hrun hdiv, tickRegs_of_match (p := { p with divcnt := 0 }) hcnt]
  simp only [matchRegs, hstate]

/-- An edge that changes OUT is logged. -/
theorem drive_pinLog_of_out_ne {s : State} {p : Pulse} (h : p.out ≠ s.pulse.out) :
    (s.drive p s.display).seen.pins = s.seen.pins ++ [(s.drive p s.display).pins] := by
  rw [State.drive_pins, if_neg fun hsame => h (congrArg Pins.out hsame)]
  rfl

/-- Settles O23: the registers by `baseRegs_of_match_in_delay`, the frame by `State.drive_frame`. -/
theorem matchInDelayRaisesTheOutput : Obligations.MatchInDelayRaisesTheOutput := by
  intro s hrun hdiv hcnt hstate
  refine ⟨_, exec_evBase s, ?_⟩
  rw [baseRegs_of_match_in_delay hrun hdiv hcnt hstate]
  exact ⟨State.drive_frame s _ _, rfl, fun hlow => drive_pinLog_of_out_ne (by simp [hlow])⟩

/-- Settles O24: the registers by `baseRegs_of_match_in_width`, the frame by `State.drive_frame`. -/
theorem matchInWidthEndsTheCycle : Obligations.MatchInWidthEndsTheCycle := by
  intro s hrun hdiv hcnt hstate
  refine ⟨_, exec_evBase s, ?_⟩
  rw [baseRegs_of_match_in_width hrun hdiv hcnt hstate]
  exact ⟨State.drive_frame s _ _, rfl, fun hhigh => drive_pinLog_of_out_ne (by simp [hhigh])⟩

/-! ### The table of transitions (R139) -/

/-- Settles O26: the instructions that write the engine (`exec_pulse`), and for an edge its cases (`baseRegs_cases`). -/
theorem pulseStateChangesOnlyAsTabled : Obligations.PulseStateChangesOnlyAsTabled := by
  intro i s t h
  obtain e | ⟨harm, e⟩ | ⟨d, w, -, -, -, e⟩ | ⟨-, -, e⟩ | ⟨m, -, e⟩ | ⟨rfl, e⟩ | ⟨rfl, e⟩ := exec_pulse h
  all_goals rw [e]
  case inl => exact .inl ⟨rfl, rfl⟩
  case inr.inl =>
    cases hbusy : s.pulse.busy with
    | true => rw [arm_of_busy hbusy]; exact .inl ⟨rfl, hbusy⟩
    | false => rw [arm_of_idle hbusy]; exact .inr (.inl ⟨harm, rfl, rfl, rfl⟩)
  case inr.inr.inl => rw [loadManual_frame]; exact .inl ⟨rfl, rfl⟩
  case inr.inr.inr.inl => exact .inl ⟨rfl, rfl⟩
  case inr.inr.inr.inr.inl => exact .inl ⟨rfl, rfl⟩
  case inr.inr.inr.inr.inr.inl =>
    obtain ⟨-, e⟩ | ⟨-, -, e⟩ | ⟨-, -, -, e⟩ | ⟨-, -, -, hp, e⟩ | ⟨-, -, -, hp, e⟩ | ⟨-, -, -, -, e⟩ := baseRegs_cases s.pulse
    all_goals rw [e]
    case inr.inr.inr.inl => exact .inr (.inr (.inl ⟨rfl, hp, rfl, rfl, rfl⟩))
    case inr.inr.inr.inr.inl => exact .inr (.inr (.inr (.inl ⟨rfl, hp, rfl, rfl, rfl⟩)))
    all_goals exact .inl ⟨rfl, rfl⟩
  case inr.inr.inr.inr.inr.inr => exact .inr (.inr (.inr (.inr ⟨rfl, rfl, rfl⟩)))

/-! ### A trigger and an edge of the same instant (R228) -/

theorem execAll_evTrig_evBase (s : State) :
    execAll [.evTrig, .evBase] s = .next ((arm s).drive (baseRegs (arm s).pulse) (arm s).display) := rfl

theorem execAll_evBase_evTrig (s : State) :
    execAll [.evBase, .evTrig] s = .next (arm (s.drive (baseRegs s.pulse) s.display)) := rfl

/-- An edge in Delay leaves BUSY as it was, match or no match. -/
theorem baseRegs_busy_of_delay {p : Pulse} (h : p.pstate = .delay) : (baseRegs p).busy = p.busy := by
  obtain ⟨-, e⟩ | ⟨-, -, e⟩ | ⟨-, -, -, e⟩ | ⟨-, -, -, -, e⟩ | ⟨-, -, -, hp, -⟩ | ⟨-, -, -, -, e⟩ := baseRegs_cases p
  case inr.inr.inr.inr.inl => rw [h] at hp; cases hp
  all_goals rw [e]

/-- DIVCNT + 1 does not wrap below a legal ratio. -/
theorem divcnt_full_of_eq {p : Pulse} (hlt : p.divcnt.toNat < p.tickPrescale.toNat) (h : p.divcnt + 1 = p.tickPrescale) :
    p.divcnt.toNat + 1 = p.tickPrescale.toNat := by
  have hratio := p.tickPrescale.isLt
  rw [← h, BitVec.toNat_add_of_lt]
  · rfl
  · exact Nat.lt_of_le_of_lt hlt hratio

/-- Settles O27: an idle engine does not see an edge before the arm; a completing one does not see a trigger before the edge. -/
theorem triggerAndBaseEdgeOrderIsObservable : Obligations.TriggerAndBaseEdgeOrderIsObservable := by
  intro s hinv
  obtain ⟨-, hlt, -, hrun, -, -, hwidth, -, -, -⟩ := hinv
  refine ⟨rfl, fun hidle => ⟨⟨_, execAll_evTrig_evBase s, ?armThenEdge⟩, ⟨_, execAll_evBase_evTrig s, ?edgeThenArm⟩⟩,
    fun hstate hdiv hcnt => ?completing⟩
  case armThenEdge =>
    rw [State.drive_pulse, arm_of_idle hidle, State.withPulse_pulse]
    refine ⟨baseRegs_busy_of_delay rfl, fun hfine hone => ?fine, fun hcoarse => ?coarse⟩
    case fine =>
      rw [baseRegs_of_full rfl (by simp [hfine]), tickRegs_of_count (by simpa using hone.symm)]
      rfl
    case coarse =>
      rw [baseRegs_of_divide rfl (by simp [hcoarse])]
      exact ⟨rfl, rfl⟩
  case edgeThenArm =>
    rw [baseRegs_of_stopped (hrun.trans hidle), arm_of_idle (s := s.drive s.pulse s.display) hidle]
    exact ⟨rfl, rfl, rfl⟩
  case completing =>
    have hbusy : s.pulse.busy = true := hwidth hstate
    have hregs := baseRegs_of_match_in_width (hrun.trans hbusy) (divcnt_full_of_eq hlt hdiv) hcnt hstate
    refine ⟨⟨_, execAll_evTrig_evBase s, ?_⟩, ⟨_, execAll_evBase_evTrig s, ?_⟩⟩
    · rw [arm_of_busy hbusy, State.drive_pulse, hregs]
      exact ⟨rfl, rfl⟩
    · rw [hregs, arm_of_idle rfl]
      exact ⟨rfl, rfl, rfl⟩

end Sys2Proof.Machine
end

section
/-! PROOFS. The length of a cycle in base edges (40_pulse_engine.md R138): the divider and the counter towards one target, the phases
of a cycle, and a run of instructions through them. -/

namespace Sys2Proof.Machine

/-! ### Counting towards one target (R131, R132) -/

theorem targetTicks_pos (c : Ticks) : 0 < targetTicks c := by
  unfold targetTicks
  split
  · decide
  · exact Nat.pos_of_ne_zero (BitVec.toNat_ne.mp ‹_›)

theorem targetTicks_le (c : Ticks) : targetTicks c ≤ 2 ^ 16 := by
  unfold targetTicks
  split
  · exact le_rfl
  · exact c.isLt.le

/-- The count modulo 65536 meets the target exactly where the count in ticks does; a target of 0 is 65536 (U3). -/
theorem tick_eq_target_iff (t c : Ticks) : t + 1 = c ↔ t.toNat + 1 = targetTicks c := by
  have ht := t.isLt
  have hc := c.isLt
  rw [← BitVec.toNat_inj, BitVec.toNat_add, targetTicks, show (1 : Ticks).toNat = 1 from rfl]
  split
  case isTrue hzero =>
    rw [hzero, show (0 : Ticks).toNat = 0 from rfl]
    omega
  case isFalse hne =>
    have hpos : c.toNat ≠ 0 := BitVec.toNat_ne.mp hne
    omega

/-- `n` base edges have been counted towards `target`: the divider and the counter hold `n`, and the target is not reached. -/
structure Counting (ratio : Byte) (target : Ticks) (n : Nat) (p : Pulse) : Prop where
  running : p.divrun = true
  busy : p.busy = true
  ratio_eq : p.tickPrescale = ratio
  cmp_eq : p.cmp = target
  divcnt_lt : p.divcnt.toNat < ratio.toNat
  tcnt_lt : p.tcnt.toNat < targetTicks target
  count : n = ratio.toNat * p.tcnt.toNat + p.divcnt.toNat

section Counting

variable {ratio : Byte} {target : Ticks} {n : Nat} {p : Pulse}

theorem Counting.lt (h : Counting ratio target n p) : n < ratio.toNat * targetTicks target := by
  calc n = ratio.toNat * p.tcnt.toNat + p.divcnt.toNat := h.count
    _ < ratio.toNat * (p.tcnt.toNat + 1) := by rw [Nat.mul_succ]; exact Nat.add_lt_add_left h.divcnt_lt _
    _ ≤ ratio.toNat * targetTicks target := Nat.mul_le_mul_left _ h.tcnt_lt

theorem Counting.withMode (h : Counting ratio target n p) (mode : Byte) : Counting ratio target n { p with mode := mode } := by
  obtain ⟨hrun, hbusy, hratio, hcmp, hdivcnt, htcnt, hcount⟩ := h
  exact ⟨hrun, hbusy, hratio, hcmp, hdivcnt, htcnt, hcount⟩

/-- One edge counts one more, or reaches the target and is the match. -/
theorem Counting.edge (h : Counting ratio target n p) :
    (n + 1 = ratio.toNat * targetTicks target ∧ p.divcnt.toNat + 1 = p.tickPrescale.toNat ∧ p.tcnt + 1 = p.cmp) ∨
    ∃ divcnt tcnt, baseRegs p = { p with divcnt := divcnt, tcnt := tcnt } ∧
      Counting ratio target (n + 1) { p with divcnt := divcnt, tcnt := tcnt } := by
  obtain ⟨hrun, hbusy, rfl, rfl, hdivcnt, htcnt, hcount⟩ := h
  by_cases hdiv : p.divcnt.toNat + 1 = p.tickPrescale.toNat
  · by_cases hcnt : p.tcnt + 1 = p.cmp
    · refine .inl ⟨?_, hdiv, hcnt⟩
      rw [hcount, Nat.add_assoc, hdiv, ← Nat.mul_succ, Nat.succ_eq_add_one, (tick_eq_target_iff _ _).mp hcnt]
    · have hnext : p.tcnt.toNat + 1 < targetTicks p.cmp :=
        Nat.lt_of_le_of_ne htcnt (mt (tick_eq_target_iff _ _).mpr hcnt)
      have hval : (p.tcnt + 1).toNat = p.tcnt.toNat + 1 :=
        BitVec.toNat_add_of_lt (Nat.lt_of_lt_of_le hnext (targetTicks_le _))
      refine .inr ⟨0, p.tcnt + 1, (baseRegs_of_full hrun hdiv).trans (tickRegs_of_count hcnt), hrun, hbusy, rfl, rfl,
        Nat.zero_lt_of_lt hdivcnt, hval ▸ hnext, ?_⟩
      rw [hval, Nat.mul_succ, hcount, Nat.add_assoc, hdiv]
      rfl
  · have hval : (p.divcnt + 1).toNat = p.divcnt.toNat + 1 :=
      BitVec.toNat_add_of_lt (Nat.lt_of_le_of_lt hdivcnt p.tickPrescale.isLt)
    refine .inr ⟨p.divcnt + 1, p.tcnt, baseRegs_of_divide hrun hdiv, hrun, hbusy, rfl, rfl, ?_, htcnt, ?_⟩
    · exact hval ▸ Nat.lt_of_le_of_ne hdivcnt hdiv
    · rw [hval, hcount, Nat.add_assoc]

end Counting

/-! ### The phases of a cycle (R138) -/

/-- Where the engine stands `n` base edges after an arm with the parameters of `p`. -/
inductive CycleAt (p : Pulse) (n : Nat) (q : Pulse) : Prop
  | delay (hcount : Counting p.tickPrescale p.delayTicks n q) (hwidth : q.widthTicks = p.widthTicks)
      (hstate : q.pstate = .delay) (hout : q.out = false)
  | width (m : Nat) (hn : n = p.tickPrescale.toNat * targetTicks p.delayTicks + m)
      (hcount : Counting p.tickPrescale p.widthTicks m q) (hstate : q.pstate = .width) (hout : q.out = true)
  | complete (hn : n = p.tickPrescale.toNat * (targetTicks p.delayTicks + targetTicks p.widthTicks))
      (hstate : q.pstate = .complete) (hbusy : q.busy = false) (hout : q.out = false)

section Cycle

variable {p q : Pulse} {n : Nat}

theorem CycleAt.of_arm {s : State} (hinv : s.pulse.Inv) (hidle : s.pulse.busy = false) : CycleAt s.pulse 0 (arm s).pulse := by
  obtain ⟨-, hlt, -, -, -, hout, hwidth, -, -, -⟩ := hinv
  have hlow : s.pulse.out = false := by
    rw [← Bool.not_eq_true, hout]
    intro hstate
    rw [hwidth hstate] at hidle
    cases hidle
  rw [arm_of_idle hidle]
  exact .delay ⟨rfl, rfl, rfl, rfl, Nat.zero_lt_of_lt hlt, targetTicks_pos _, rfl⟩ rfl rfl hlow

theorem CycleAt.busy (h : CycleAt p n q) (hn : n < p.tickPrescale.toNat * (targetTicks p.delayTicks + targetTicks p.widthTicks)) :
    q.busy = true := by
  cases h with
  | delay hcount => exact hcount.busy
  | width m hm hcount => exact hcount.busy
  | complete htotal => exact absurd htotal (Nat.ne_of_lt hn)

theorem CycleAt.withMode (h : CycleAt p n q) (mode : Byte) : CycleAt p n { q with mode := mode } := by
  cases h with
  | delay hcount hwidth hstate hout => exact .delay (hcount.withMode mode) hwidth hstate hout
  | width m hm hcount hstate hout => exact .width m hm (hcount.withMode mode) hstate hout
  | complete hn hstate hbusy hout => exact .complete hn hstate hbusy hout

theorem CycleAt.edge (h : CycleAt p n q) (hratio : 0 < p.tickPrescale.toNat)
    (hn : n < p.tickPrescale.toNat * (targetTicks p.delayTicks + targetTicks p.widthTicks)) : CycleAt p (n + 1) (baseRegs q) := by
  cases h with
  | delay hcount hwidth hstate hout =>
    obtain ⟨hend, hdiv, hcnt⟩ | ⟨divcnt, tcnt, e, hnext⟩ := hcount.edge
    · rw [baseRegs_of_match_in_delay hcount.running hdiv hcnt hstate, hend]
      exact .width 0 rfl ⟨hcount.running, hcount.busy, hcount.ratio_eq, hwidth, hratio, targetTicks_pos _, rfl⟩ rfl rfl
    · rw [e]
      exact .delay hnext hwidth hstate hout
  | width m hm hcount hstate hout =>
    obtain ⟨hend, hdiv, hcnt⟩ | ⟨divcnt, tcnt, e, hnext⟩ := hcount.edge
    · rw [baseRegs_of_match_in_width hcount.running hdiv hcnt hstate]
      exact .complete (by rw [hm, Nat.add_assoc, hend, Nat.mul_add]) rfl rfl rfl
    · rw [e]
      exact .width (m + 1) (by rw [hm, Nat.add_assoc]) hnext hstate hout
  | complete htotal => exact absurd htotal (Nat.ne_of_lt hn)

/-- The registers of a cycle's phase, read off the number of edges (R138). -/
theorem CycleAt.outcome (h : CycleAt p n q) :
    (n < p.tickPrescale.toNat * targetTicks p.delayTicks → q.pstate = .delay ∧ q.busy = true ∧ q.out = false) ∧
    (p.tickPrescale.toNat * targetTicks p.delayTicks ≤ n →
      n < p.tickPrescale.toNat * (targetTicks p.delayTicks + targetTicks p.widthTicks) →
      q.pstate = .width ∧ q.busy = true ∧ q.out = true) ∧
    (n = p.tickPrescale.toNat * (targetTicks p.delayTicks + targetTicks p.widthTicks) →
      q.pstate = .complete ∧ q.busy = false ∧ q.out = false) := by
  rw [Nat.mul_add]
  cases h with
  | delay hcount hwidth hstate hout =>
    have := hcount.lt
    exact ⟨fun _ => ⟨hstate, hcount.busy, hout⟩, fun _ _ => by omega, fun _ => by omega⟩
  | width m hm hcount hstate hout =>
    have := hcount.lt
    exact ⟨fun _ => by omega, fun _ _ => ⟨hstate, hcount.busy, hout⟩, fun _ => by omega⟩
  | complete htotal hstate hbusy hout =>
    rw [Nat.mul_add] at htotal
    exact ⟨fun _ => by omega, fun _ _ => by omega, fun _ => ⟨hstate, hbusy, hout⟩⟩

end Cycle

/-! ### A run through a cycle -/

/-- What an instruction that keeps the parameters does to a busy engine: an edge, or at most a write of MODE. -/
theorem exec_pulse_of_busy {i : Instr} {s t : State} (h : exec i s = .next t) (hkeep : keepsParameters i = true)
    (hbusy : s.pulse.busy = true) (hedge : i ≠ .evBase) : ∃ mode, t.pulse = { s.pulse with mode := mode } := by
  obtain e | ⟨-, e⟩ | ⟨d, w, rfl, -⟩ | ⟨rfl, -⟩ | ⟨m, -, e⟩ | ⟨rfl, -⟩ | ⟨rfl, -⟩ := exec_pulse h
  · exact ⟨s.pulse.mode, e⟩
  · exact ⟨s.pulse.mode, by rw [e, arm_of_busy hbusy]⟩
  · cases hkeep
  · cases hkeep
  · exact ⟨m, e⟩
  · exact absurd rfl hedge
  · cases hkeep

theorem keepsParameters_ne {i : Instr} (h : keepsParameters i = true) : i ≠ .setauto ∧ ∀ d w, i ≠ .setman d w := by
  refine ⟨?_, fun d w => ?_⟩
  · rintro rfl; cases h
  · rintro rfl; cases h

/-- One instruction inside a cycle: it completes, and the cycle stands one edge further after an edge. -/
theorem CycleAt.step {p : Pulse} {n : Nat} {s : State} (h : CycleAt p n s.pulse) (hratio : 0 < p.tickPrescale.toNat)
    (hn : n < p.tickPrescale.toNat * (targetTicks p.delayTicks + targetTicks p.widthTicks)) {i : Instr}
    (hkeep : keepsParameters i = true) :
    ∃ t, exec i s = .next t ∧ CycleAt p (n + [i].count .evBase) t.pulse := by
  by_cases hedge : i = .evBase
  · subst hedge
    exact ⟨_, exec_evBase s, h.edge hratio hn⟩
  · obtain ⟨hauto, hman⟩ := keepsParameters_ne hkeep
    obtain ⟨t, ht⟩ := exec_answers s hauto hman
    obtain ⟨mode, e⟩ := exec_pulse_of_busy ht hkeep (h.busy hn) hedge
    refine ⟨t, ht, ?_⟩
    rw [e, List.count_eq_zero_of_not_mem (by simpa using Ne.symm hedge)]
    exact h.withMode mode

/-- A list of instructions inside a cycle, up to the cycle's last edge at the end of the list. -/
theorem CycleAt.run {p : Pulse} (hratio : 0 < p.tickPrescale.toNat) (is : List Instr)
    (hkeep : ∀ i ∈ is, keepsParameters i = true) {n : Nat} {s : State} (h : CycleAt p n s.pulse)
    (htotal : n + is.count .evBase ≤ p.tickPrescale.toNat * (targetTicks p.delayTicks + targetTicks p.widthTicks))
    (hlast : is = [] ∨ n + is.count .evBase < p.tickPrescale.toNat * (targetTicks p.delayTicks + targetTicks p.widthTicks) ∨
      is.getLast? = some .evBase) :
    ∃ t, execAll is s = .next t ∧ CycleAt p (n + is.count .evBase) t.pulse := by
  induction is generalizing n s with
  | nil => exact ⟨s, rfl, h⟩
  | cons i is ih =>
    have hcount : (i :: is).count .evBase = [i].count .evBase + is.count .evBase := List.count_append (l₁ := [i])
    rw [hcount, ← Nat.add_assoc] at htotal hlast ⊢
    have hn : n < p.tickPrescale.toNat * (targetTicks p.delayTicks + targetTicks p.widthTicks) := by
      obtain hnil | hlt | hend := hlast
      · cases hnil
      · omega
      · have := List.count_pos_iff.mpr (List.mem_of_getLast? hend)
        omega
    obtain ⟨hi, his⟩ := List.forall_mem_cons.mp hkeep
    obtain ⟨u, hu, hcycle⟩ := h.step hratio hn hi
    rw [execAll, hu]
    refine ih his hcycle htotal ?_
    cases is with
    | nil => exact .inl rfl
    | cons j js =>
      rw [List.getLast?_cons_cons] at hlast
      exact .inr (hlast.resolve_left (List.cons_ne_nil _ _))

/-- Settles O25: the arm starts the cycle (`CycleAt.of_arm`), the list runs through it, and the phase is read off the edges. -/
theorem cycleLengthInBaseEdges : Obligations.CycleLengthInBaseEdges := by
  intro i s is harm hinv hidle hkeep
  dsimp only
  intro htotal hlast
  have ⟨_, hdivcnt, _⟩ := hinv
  have hratio : 0 < s.pulse.tickPrescale.toNat := Nat.zero_lt_of_lt hdivcnt
  have hstart := CycleAt.of_arm hinv hidle
  rw [← Nat.zero_add (is.count .evBase)] at htotal hlast
  obtain ⟨t, hrun, hcycle⟩ := hstart.run hratio is hkeep htotal (.inr hlast)
  rw [Nat.zero_add] at hcycle
  refine ⟨t, ?_, hcycle.outcome⟩
  rw [execAll, exec_of_arms s harm]
  exact hrun

end Sys2Proof.Machine
end

section
/-! PROOFS. The serial receive buffer over several steps (42_serial.md): held reads, the transmit path, FLUSH against a reception. -/

namespace Sys2Proof.Machine

/-! ### A ring in form -/

theorem Memory.wf.pos {r : Serial} (h : Memory.wf r) : 0 < ringSize r := by
  obtain ⟨h2, -, -, -⟩ := h
  exact Nat.lt_of_lt_of_le Nat.zero_lt_two h2

theorem Memory.wf.head_lt {r : Serial} (h : Memory.wf r) : r.head < ringSize r := by
  obtain ⟨-, -, hhead, -⟩ := h
  exact hhead

theorem Memory.wf.tail_lt {r : Serial} (h : Memory.wf r) : r.tail < ringSize r := by
  obtain ⟨-, -, -, htail⟩ := h
  exact htail

/-! ### Reads and holds (R192) -/

theorem subReady_of_read {s : State} (h : s.port.pending = some .read) : subReady s = received s.serial := by
  simp only [subReady, h]

theorem received_eq_true {r : Serial} (h : r.head ≠ r.tail) : received r = true := decide_eq_true h

theorem received_eq_false {r : Serial} (h : r.head = r.tail) : received r = false := decide_eq_false (not_not_intro h)

theorem runSub_of_read {s : State} (hread : s.port.pending = some .read) (hne : s.serial.head ≠ s.serial.tail) :
    runSub s =
      ((s.respond ((ringRead s.serial s.serial.head).setWidth 32)).withSerial (ringPop s.serial)).setPending none := by
  simp only [runSub, hread, if_pos (received_eq_true hne)]

theorem exec_rdbyte_of_nonempty {s : State} (hne : s.serial.head ≠ s.serial.tail) :
    exec .rdbyte s = .next
      (((s.respond ((ringRead s.serial s.serial.head).setWidth 32)).withSerial (ringPop s.serial)).setPending none) :=
  congrArg Host.Outcome.next (runSub_of_read (s := s.setPending (some .read)) rfl hne)

theorem exec_rdbyte_of_empty {s : State} (heq : s.serial.head = s.serial.tail) :
    exec .rdbyte s = .next (s.setPending (some .read)) :=
  congrArg Host.Outcome.next (runSub_of_not_subReady (s := s.setPending (some .read)) (received_eq_false heq))

/-- An event leaves the port alone, but for a reset, which clears it. -/
theorem exec_port_of_event {i : Instr} {s t : State} (h : exec i s = .next t) (hevent : i.isEvent = true) :
    t.port = s.port ∨ t.port = Port.reset := by
  cases exec_effect h with
  | stores ws hblock hcommand => rw [hcommand] at hevent; cases hevent
  | read => cases hevent
  | send => cases hevent
  | reset => exact .inr rfl
  | none | pulse | answer | edge | on | off | refresh | slot | serial => exact .inl rfl

/-- No event but a reception fills an empty ring. -/
theorem exec_event_keeps_empty {i : Instr} {s t : State} (h : exec i s = .next t) (hevent : i.isEvent = true)
    (hrx : ∀ b, i ≠ .evRx b) (heq : s.serial.head = s.serial.tail) : t.serial.head = t.serial.tail := by
  obtain e | ⟨rfl, -⟩ | ⟨⟨p, rfl⟩, -⟩ | ⟨rfl, -⟩ | ⟨b, rfl, -⟩ | ⟨l, -, e⟩ | ⟨-, e⟩ := exec_serial h
  · rwa [e]
  · cases hevent
  · cases hevent
  · cases hevent
  · exact absurd rfl (hrx b)
  · rwa [e]
  · rw [e]; rfl

/-- Settles O37: the read and the hold by their equations; the hold stays because the ring stays empty and the port as it was. -/
theorem readReturnsTheByteAtHeadOrHolds : Obligations.ReadReturnsTheByteAtHeadOrHolds := by
  refine ⟨fun _ => rfl, fun s hwf => ⟨fun hne => ?read, fun heq => ⟨exec_rdbyte_of_empty heq, fun i t hevent hrx h => ?hold⟩⟩⟩
  case read =>
    have hhead := hwf.head_lt
    refine ⟨s.serial.ring[s.serial.head], List.getElem?_eq_getElem hhead, ?_⟩
    rw [exec_rdbyte_of_nonempty hne, ringRead_of_lt hhead]
    rfl
  case hold =>
    obtain hport | hport := exec_port_of_event h hevent
    · rw [subReady_of_read (congrArg Port.pending hport)]
      exact received_eq_false (exec_event_keeps_empty h hevent hrx heq)
    · simp only [subReady, hport, Port.reset]

theorem nextIndex_ne {r : Serial} (h : Memory.wf r) : r.tail ≠ nextIndex r r.tail := by
  obtain ⟨h2, -, -, htail⟩ := h
  unfold nextIndex
  obtain hlt | heq : r.tail + 1 < ringSize r ∨ r.tail + 1 = ringSize r := Nat.lt_or_eq_of_le htail
  · rw [Nat.mod_eq_of_lt hlt]; omega
  · rw [heq, Nat.mod_self]; omega

/-- Settles O38: the arriving byte stands at HEAD, and the read takes it and empties the ring again. -/
theorem heldReadCompletesOnReception : Obligations.HeldReadCompletesOnReception := by
  intro b s hwf hread heq
  have hne : (ringPush s.serial b).head ≠ (ringPush s.serial b).tail := by
    rw [ringPush_head, ringPush_tail, heq]
    exact nextIndex_ne hwf
  have hbyte : ringRead (ringPush s.serial b) (ringPush s.serial b).head = b := by
    rw [ringPush_head, heq]
    exact ringRead_ringPush_tail hwf.tail_lt b
  have hrun := runSub_of_read (s := s.withSerial (ringPush s.serial b)) hread hne
  rw [State.withSerial_serial, hbyte] at hrun
  refine ⟨_, exec_evRx b s, ?_, hrun, ?_⟩
  · exact (subReady_of_read (s := s.withSerial (ringPush s.serial b)) hread).trans (received_eq_true hne)
  · rw [hrun]
    change nextIndex (ringPush s.serial b) s.serial.head = nextIndex s.serial s.serial.tail
    rw [nextIndex, nextIndex, ringSize_ringPush, heq]

/-! ### The transmit path (R193, R195) -/

theorem sentBytes_eq_flatMap (p : List Byte) : sentBytes p = p.flatMap fun c => if c = 0x0A then [0x0D, 0x0A] else [c] := by
  induction p with
  | nil => rfl
  | cons b bs ih =>
    rw [sentBytes, List.flatMap_cons, ih]
    by_cases hb : b = Config.lf
    · rw [if_pos hb, if_pos (show b = 0x0A from hb), hb]
      rfl
    · rw [if_neg hb, if_neg (show b ≠ 0x0A from hb)]
      rfl

theorem remaining_send_eq (bs : List Byte) : remaining .send bs = if bs = [] then none else some (.send bs) := by
  cases bs with
  | nil => rfl
  | cons b bs => rfl

theorem runSub_of_send {s : State} {b : Byte} {bs : List Byte} (hsend : s.port.pending = some (.send (b :: bs)))
    (hready : s.serial.txrdy = true) :
    runSub s = ((s.emit b).withSerial { s.serial with txrdy := false }).setPending (remaining .send bs) := by
  simp only [runSub, hsend, hready, if_true]

theorem exec_wrbytes_of_ready {p : List Byte} {b : Byte} {bs : List Byte} {s : State} (hbytes : sentBytes p = b :: bs)
    (hready : s.serial.txrdy = true) :
    exec (.wrbytes p) s = .next (((s.emit b).withSerial { s.serial with txrdy := false }).setPending (remaining .send bs)) := by
  refine congrArg Host.Outcome.next ?_
  rw [hbytes]
  exact runSub_of_send (s := s.setPending (some (.send (b :: bs)))) rfl hready

theorem exec_wrbytes_of_not_ready {p : List Byte} {s : State} (hready : s.serial.txrdy = false) :
    exec (.wrbytes p) s = .next (s.setPending (remaining .send (sentBytes p))) := by
  refine congrArg Host.Outcome.next (runSub_of_not_subReady (s := s.setPending (remaining .send (sentBytes p))) ?_)
  cases sentBytes p with
  | nil => rfl
  | cons b bs => exact hready

/-- Settles O39: the translated bytes are `sentBytes`; ready, the first goes out; not ready, all wait. -/
theorem writeSendsOrHolds : Obligations.WriteSendsOrHolds := by
  refine ⟨fun rest p hp => decodeS_payload .wrbytes rest hp, fun payload s => ⟨?_, fun b rest hbytes => ?_⟩⟩
  · rintro rfl
    rfl
  · rw [← sentBytes_eq_flatMap] at hbytes
    refine ⟨fun hready => ?_, fun hready => ?_⟩
    · rw [exec_wrbytes_of_not_ready hready, hbytes]
      rfl
    · rw [exec_wrbytes_of_ready hbytes hready, remaining_send_eq]
      rfl

/-- What stays while a payload is sent: `sent` has gone out since `s`, `left` is still in progress, and nothing but TXRDY, the bytes
sent and the command in progress has changed. -/
structure Sending (s : State) (sent left : List Byte) (u : State) : Prop where
  tx : u.seen.tx = s.seen.tx ++ sent
  pending : u.port.pending = remaining .send left
  pulse : u.pulse = s.pulse
  display : u.display = s.display
  ring : u.serial.ring = s.serial.ring
  head : u.serial.head = s.serial.head
  tail : u.serial.tail = s.serial.tail
  resp : u.seen.resp = s.seen.resp

/-- The state after the transmitter has reported ready and the command has made its next sub-step. -/
theorem readyRound_eq (u : State) : readyRound u = runSub (u.withSerial { u.serial with txrdy := true }) := rfl

theorem Sending.round_cons {s u : State} {sent left : List Byte} {b : Byte} (h : Sending s sent (b :: left) u) :
    Sending s (sent ++ [b]) left (readyRound u) := by
  obtain ⟨htx, hpending, hpulse, hdisplay, hring, hhead, htail, hresp⟩ := h
  rw [readyRound_eq, runSub_of_send (s := u.withSerial { u.serial with txrdy := true }) hpending rfl]
  refine ⟨?_, rfl, hpulse, hdisplay, hring, hhead, htail, hresp⟩
  change u.seen.tx ++ [b] = _
  rw [htx, List.append_assoc]

theorem Sending.round_nil {s u : State} {sent : List Byte} (h : Sending s sent [] u) : Sending s sent [] (readyRound u) := by
  obtain ⟨htx, hpending, hpulse, hdisplay, hring, hhead, htail, hresp⟩ := h
  have hidle : subReady (u.withSerial { u.serial with txrdy := true }) = false := by
    simp only [subReady, State.withSerial_port, hpending, remaining]
  rw [readyRound_eq, runSub_of_not_subReady hidle]
  exact ⟨htx, hpending, hpulse, hdisplay, hring, hhead, htail, hresp⟩

/-- As many rounds as bytes are left, or more, send them all. -/
theorem Sending.rounds {s u : State} {sent left : List Byte} (h : Sending s sent left u) {n : Nat} (hn : left.length ≤ n) :
    Sending s (sent ++ left) [] (readyRounds n u) := by
  induction n generalizing u sent left with
  | zero =>
    obtain rfl : left = [] := List.length_eq_zero_iff.mp (Nat.le_zero.mp hn)
    rwa [List.append_nil]
  | succ n ih =>
    cases left with
    | nil => exact ih h.round_nil (Nat.zero_le n)
    | cons b left =>
      have := ih h.round_cons (Nat.le_of_succ_le_succ hn)
      rwa [List.append_assoc] at this

/-- WRBYTES is accepted with its first byte sent, or with all of them still to send. -/
theorem exec_wrbytes_sending (p : List Byte) (s : State) :
    ∃ t sent left, exec (.wrbytes p) s = .next t ∧ sent ++ left = sentBytes p ∧ Sending s sent left t := by
  cases hready : s.serial.txrdy with
  | false =>
    exact ⟨_, [], sentBytes p, exec_wrbytes_of_not_ready hready, rfl, (List.append_nil _).symm, rfl, rfl, rfl, rfl, rfl, rfl, rfl⟩
  | true =>
    cases hbytes : sentBytes p with
    | nil =>
      refine ⟨s.setPending none, [], [], ?_, rfl, (List.append_nil _).symm, rfl, rfl, rfl, rfl, rfl, rfl, rfl⟩
      refine congrArg Host.Outcome.next ?_
      rw [hbytes]
      rfl
    | cons b left =>
      exact ⟨_, [b], left, exec_wrbytes_of_ready hbytes hready, rfl, rfl, rfl, rfl, rfl, rfl, rfl, rfl, rfl⟩

/-- Settles O40: after acceptance the sending invariant holds, and the rounds run it to its end. -/
theorem writeSendsThePayload : Obligations.WriteSendsThePayload := by
  intro payload s
  obtain ⟨t, sent, left, hexec, hbytes, hsending⟩ := exec_wrbytes_sending payload s
  refine ⟨t, hexec, ?_⟩
  dsimp only
  rw [← sentBytes_eq_flatMap, ← hbytes]
  obtain ⟨htx, hpending, hpulse, hdisplay, hring, hhead, htail, hresp⟩ :=
    hsending.rounds (n := (sent ++ left).length) (by rw [List.length_append]; omega)
  exact ⟨htx, hpending, hpulse, hdisplay, hring, hhead, htail, hresp⟩

/-! ### The two orders of a reception and FLUSH (R199) -/

/-- Settles O43: FLUSH clears both indices; a reception after it fills cell 0 of a ring of at least two. -/
theorem flushAgainstReception : Obligations.FlushAgainstReception := by
  intro b s hwf
  have hflushed : Memory.wf { s.serial with head := 0, tail := 0 } := flush_wf hwf
  have htail : (ringPush { s.serial with head := 0, tail := 0 } b).tail = 1 :=
    Nat.mod_eq_of_lt (Nat.lt_of_lt_of_le Nat.one_lt_two hwf.1)
  refine ⟨⟨_, rfl, rfl, rfl⟩, ⟨_, rfl, rfl, htail, ?_, ?_⟩⟩
  · exact (ringPush_getElem? hflushed.tail_lt b 0).trans (if_pos rfl)
  · refine received_eq_true ?_
    change 0 ≠ (ringPush { s.serial with head := 0, tail := 0 } b).tail
    rw [htail]
    exact Nat.zero_ne_one

end Sys2Proof.Machine
end

section
/-! PROOFS. The ring as a counter of receptions (10_state.md R42, 42_serial.md R198): TAIL over any run, and what is read back of the
last lap. -/

namespace Sys2Proof.Machine

/-! ### TAIL counts receptions (R42 (i)) -/

/-- One instruction but FLUSH and reset: N stays, and TAIL advances by one exactly for a reception. -/
theorem exec_tail_counts {i : Instr} {s t : State} (h : exec i s = .next t) (hwf : Memory.wf s.serial) (hflush : i ≠ .flush)
    (hreset : i ≠ .evReset) {isRx : Instr → Bool} (hrx : ∀ b, isRx (.evRx b) = true)
    (hother : ∀ j, (∀ b, j ≠ .evRx b) → isRx j = false) :
    t.serial.tail = (s.serial.tail + (if isRx i then 1 else 0)) % ringSize s.serial := by
  by_cases hi : ∃ b, i = .evRx b
  · obtain ⟨b, rfl⟩ := hi
    cases h
    rw [if_pos (hrx b)]
    rfl
  · have hi : ∀ b, i ≠ .evRx b := fun b hb => hi ⟨b, hb⟩
    rw [hother i hi, (exec_tail_ring_of_other h hflush hreset hi).1]
    exact (Nat.mod_eq_of_lt hwf.tail_lt).symm

/-- A run without FLUSH and reset: N stays, and TAIL has advanced by the number of receptions. -/
theorem execAll_tail_counts {isRx : Instr → Bool} (hrx : ∀ b, isRx (.evRx b) = true)
    (hother : ∀ j, (∀ b, j ≠ .evRx b) → isRx j = false) (is : List Instr) {s t : State} (hwf : Memory.wf s.serial)
    (hkeep : ∀ i ∈ is, i ≠ .flush ∧ i ≠ .evReset) (h : execAll is s = .next t) :
    ringSize t.serial = ringSize s.serial ∧
    t.serial.tail = (s.serial.tail + (is.filter isRx).length) % ringSize s.serial := by
  induction is generalizing s with
  | nil =>
    cases h
    exact ⟨rfl, (Nat.mod_eq_of_lt hwf.tail_lt).symm⟩
  | cons i is ih =>
    obtain ⟨⟨hflush, hreset⟩, his⟩ := List.forall_mem_cons.mp hkeep
    rw [execAll] at h
    split at h
    case h_1 u hu =>
      have hsize : ringSize u.serial = ringSize s.serial := exec_ringSize hu
      obtain ⟨hn, htail⟩ := ih (exec_wf hu hwf) his h
      have hone := exec_tail_counts hu hwf hflush hreset hrx hother
      refine ⟨hn.trans hsize, ?_⟩
      rw [htail, hsize, hone, Nat.mod_add_mod, List.filter_cons]
      cases hi : isRx i with
      | false => rfl
      | true => rw [if_pos rfl, if_pos rfl, List.length_cons, Nat.add_assoc, Nat.add_comm 1]
    all_goals cases h

/-- Settles O45: the counting lemma for the statement's own test of an instruction. -/
theorem tailCountsReceptions : Obligations.TailCountsReceptions := by
  intro is s t hwf hkeep h
  refine execAll_tail_counts (fun _ => rfl) (fun j hj => ?_) is hwf hkeep h
  cases j with
  | evRx b => exact absurd rfl (hj b)
  | _ => rfl

/-! ### A lap of the ring (R198) -/

/-- The ring after several receptions; `execAll_evRx` ties it to the runs of EV_RX. -/
def pushAll (r : Serial) (bs : List Byte) : Serial := bs.foldl ringPush r

theorem execAll_evRx (bs : List Byte) (s : State) : execAll (bs.map .evRx) s = .next (s.withSerial (pushAll s.serial bs)) := by
  induction bs generalizing s with
  | nil => rfl
  | cons b bs ih => exact ih (s.withSerial (ringPush s.serial b))

section PushAll

variable (r : Serial) (bs : List Byte)

theorem pushAll_concat (b : Byte) : pushAll r (bs ++ [b]) = ringPush (pushAll r bs) b := List.foldl_concat ringPush r b bs

@[simp] theorem ringSize_pushAll : ringSize (pushAll r bs) = ringSize r := by
  induction bs using List.reverseRecOn with
  | nil => rfl
  | append_singleton bs b ih => rw [pushAll_concat, ringSize_ringPush, ih]

@[simp] theorem pushAll_head : (pushAll r bs).head = r.head := by
  induction bs using List.reverseRecOn with
  | nil => rfl
  | append_singleton bs b ih => rw [pushAll_concat, ringPush_head, ih]

variable {r}

theorem pushAll_wf (hwf : Memory.wf r) : Memory.wf (pushAll r bs) := by
  induction bs using List.reverseRecOn with
  | nil => exact hwf
  | append_singleton bs b ih => rw [pushAll_concat]; exact ringPush_wf ih b

theorem pushAll_tail (hwf : Memory.wf r) : (pushAll r bs).tail = (r.tail + bs.length) % ringSize r := by
  induction bs using List.reverseRecOn with
  | nil => exact (Nat.mod_eq_of_lt hwf.tail_lt).symm
  | append_singleton bs b ih =>
    rw [pushAll_concat, ringPush_tail, nextIndex, ih, ringSize_pushAll, Nat.mod_add_mod, List.length_append, Nat.add_assoc]
    rfl

/-- Cells less than a lap apart are different. -/
theorem lap_cells_ne {n a j k : Nat} (hjk : j < k) (hlap : k - j < n) : (a + j) % n ≠ (a + k) % n := by
  intro heq
  have hdvd : n ∣ k - j := by
    have := (Nat.modEq_iff_dvd' (Nat.add_le_add_left hjk.le a)).mp heq
    rwa [Nat.add_sub_add_left] at this
  exact absurd (Nat.le_of_dvd (Nat.sub_pos_of_lt hjk) hdvd) (Nat.not_le.mpr hlap)

/-- The bytes of the last lap stand in their cells: the `j`-th reception's, counted from the old TAIL. -/
theorem ringRead_pushAll (hwf : Memory.wf r) {j : Nat} (hj : j < bs.length) (hlap : bs.length - j ≤ ringSize r) :
    ringRead (pushAll r bs) ((r.tail + j) % ringSize r) = bs[j] := by
  induction bs using List.reverseRecOn with
  | nil => cases hj
  | append_singleton bs b ih =>
    have htail := pushAll_tail bs hwf
    rw [List.length_append, List.length_singleton] at hj hlap
    rw [pushAll_concat]
    obtain hlt | rfl : j < bs.length ∨ j = bs.length := Nat.lt_or_eq_of_le (Nat.le_of_lt_succ hj)
    · have hne : (r.tail + j) % ringSize r ≠ (pushAll r bs).tail := by
        rw [htail]
        exact lap_cells_ne hlt (by omega)
      rw [ringRead_ringPush_ne hne, ih hlt (by omega), List.getElem_append_left hlt]
    · rw [← htail, ringRead_ringPush_tail (pushAll_wf bs hwf).tail_lt, List.getElem_concat_length rfl]

end PushAll

/-- `m` reads of a ring that holds at least `m` bytes (`avail`, less than a lap): they answer the cells from HEAD on, in order, and
advance HEAD by `m`. -/
theorem execAll_rdbyte (m : Nat) {s : State} {avail : Nat} (hwf : Memory.wf s.serial) (hm : m ≤ avail)
    (havail : avail < ringSize s.serial) (htail : s.serial.tail = (s.serial.head + avail) % ringSize s.serial) :
    ∃ u, execAll (List.replicate m .rdbyte) s = .next u ∧
      u.seen.resp = s.seen.resp ++
        (List.range m).map (fun j => (ringRead s.serial ((s.serial.head + j) % ringSize s.serial)).setWidth 32) ∧
      u.serial = { s.serial with head := (s.serial.head + m) % ringSize s.serial } := by
  induction m generalizing s avail with
  | zero => exact ⟨s, rfl, (List.append_nil _).symm, by rw [Nat.add_zero, Nat.mod_eq_of_lt hwf.head_lt]⟩
  | succ m ih =>
    obtain ⟨avail, rfl⟩ := Nat.exists_eq_add_one.mpr (Nat.zero_lt_of_lt hm)
    have hhead : (s.serial.head + 0) % ringSize s.serial = s.serial.head := Nat.mod_eq_of_lt hwf.head_lt
    have hcell (j : Nat) : ((s.serial.head + 1) % ringSize s.serial + j) % ringSize s.serial =
        (s.serial.head + (j + 1)) % ringSize s.serial := by
      rw [Nat.mod_add_mod, Nat.add_assoc, Nat.add_comm 1]
    have hne : s.serial.head ≠ s.serial.tail := fun heq =>
      lap_cells_ne (Nat.succ_pos avail) havail (hhead.trans (heq.trans htail))
    rw [List.replicate_succ, execAll, exec_rdbyte_of_nonempty hne]
    obtain ⟨u, hu, hresp, hserial⟩ := ih (avail := avail)
      (s := ((s.respond ((ringRead s.serial s.serial.head).setWidth 32)).withSerial (ringPop s.serial)).setPending none)
      (ringPop_wf hwf) (Nat.le_of_succ_le_succ hm) (Nat.lt_of_succ_lt havail) (htail.trans (hcell avail).symm)
    refine ⟨u, hu, ?_, ?_⟩
    · rw [hresp, List.range_succ_eq_map, List.map_cons, List.map_map, hhead]
      change (s.seen.resp ++ [_]) ++ List.map _ _ = _
      rw [List.append_assoc]
      refine congrArg (fun l => s.seen.resp ++ (_ :: l)) (List.map_congr_left fun j _ => ?_)
      exact congrArg (fun i => (ringRead s.serial i).setWidth 32) (hcell j)
    · rw [hserial]
      exact congrArg (fun h => { s.serial with head := h }) (hcell m)

/-- The cells from HEAD on hold the last `m` bytes, where `m` is what the laps leave over. -/
theorem map_ringRead_pushAll {r : Serial} (hwf : Memory.wf r) (bs : List Byte) :
    (List.range (bs.length % ringSize r)).map (fun j => ringRead (pushAll r bs) ((r.tail + j) % ringSize r)) =
      bs.drop (bs.length - bs.length % ringSize r) := by
  have hm := Nat.mod_lt bs.length hwf.pos
  have hle := Nat.mod_le bs.length (ringSize r)
  have hlaps : bs.length - bs.length % ringSize r = ringSize r * (bs.length / ringSize r) := by
    have := Nat.mod_add_div bs.length (ringSize r)
    omega
  refine List.ext_getElem (by simp; omega) fun j hj _ => ?_
  rw [List.length_map, List.length_range] at hj
  rw [List.getElem_map, List.getElem_range, List.getElem_drop, ← ringRead_pushAll bs hwf (by omega) (by omega), hlaps]
  rw [Nat.add_left_comm, Nat.mul_add_mod]

/-- Settles O44: the receptions are `pushAll`, which leaves HEAD and TAIL `m` cells apart; the reads answer the cells between. -/
theorem ringReturnsTheLastPartialLap : Obligations.RingReturnsTheLastPartialLap := by
  intro bs s hwf heq
  have hm : bs.length % ringSize s.serial < ringSize s.serial := Nat.mod_lt _ hwf.pos
  have htail : (pushAll s.serial bs).tail = (s.serial.head + bs.length % ringSize s.serial) % ringSize s.serial := by
    rw [pushAll_tail bs hwf, heq, Nat.add_mod_mod]
  obtain ⟨u, hu, hresp, hserial⟩ := execAll_rdbyte (bs.length % ringSize s.serial) (s := s.withSerial (pushAll s.serial bs))
    (pushAll_wf bs hwf) le_rfl (by simpa using hm) (by simpa using htail)
  refine ⟨_, u, execAll_evRx bs s, ?received, hu, ?responses, ?empty⟩
  case received =>
    have hhead : (s.serial.head + 0) % ringSize s.serial = s.serial.head := Nat.mod_eq_of_lt hwf.head_lt
    obtain hzero | hpos := Nat.eq_zero_or_pos (bs.length % ringSize s.serial)
    · rw [hzero, hhead] at htail
      exact (received_eq_false ((pushAll_head s.serial bs).trans htail.symm)).trans (decide_eq_false (not_not_intro hzero)).symm
    · have hne : (pushAll s.serial bs).head ≠ (pushAll s.serial bs).tail := by
        rw [pushAll_head, htail]
        exact fun hsame => lap_cells_ne hpos hm (hhead.trans hsame)
      exact (received_eq_true hne).trans (decide_eq_true hpos.ne').symm
  case responses =>
    have hcells := congrArg (List.map (BitVec.setWidth 32)) (map_ringRead_pushAll hwf bs)
    rw [List.map_map] at hcells
    rw [hresp]
    simp only [State.withSerial_serial, State.withSerial_seen, ringSize_pushAll, pushAll_head, heq]
    exact congrArg (s.seen.resp ++ ·) hcells
  case empty =>
    rw [hserial]
    refine received_eq_false ?_
    simp only [State.withSerial_serial, ringSize_pushAll, pushAll_head]
    exact htail.symm

end Sys2Proof.Machine
end
